-- ==== Sys2Proof/Word.lean ====
section
/-! DEFINITION. The word of the block's ports and the three words of a command (30_encoding.md R70, R72). -/

namespace Sys2Proof

/-- A 32-bit value of a port: an element (`ELEM_W`), a size or length (`LEN_W`), a status or result word
(00_scope.md R8). Bit 0 is the least significant (R10), and no rule reads a word as signed (R11). -/
abbrev Word := BitVec 32

/-- The three words of a command, presented together (30_encoding.md R72). -/
structure CommandWords where
  /-- Word 0, `CTRL`, bits [31:0] of the command. -/
  ctrl : Word
  /-- Word 1, `SIZE`, bits [63:32]. -/
  size : Word
  /-- Word 2, `LEN`, bits [95:64]. -/
  len : Word
  deriving DecidableEq, Repr

end Sys2Proof
end

