-- ==== Sys2Proof/Config.lean ====
section
/-! DEFINITION. The free values of the model: what the spec calls a draw (00_scope.md R15) or gives no value, each a
constant with no body, so that a claim about it holds whatever it is. The parameters `STORE_W` and `OBS_EN` (R8) are fields
of State that no step changes, so that a statement about every state is a statement about every admitted parameter. -/

namespace Sys2Proof

/-- The contents of `CRC` that reset number `n` leaves (10_state.md R35); a register of 16 bits takes the low 16.
DESIGN CHOICE (notes/assumptions/3.md). -/
opaque Config.freeCrc : Nat → Word

/-- The contents of `IDX` that reset number `n` leaves (10_state.md R35). DESIGN CHOICE (notes/assumptions/3.md). -/
opaque Config.freeIdx : Nat → Word

/-- The contents of `LEN_L` that reset number `n` leaves (10_state.md R35). DESIGN CHOICE (notes/assumptions/3.md). -/
opaque Config.freeLen : Nat → Word

/-- What a read of `RESULT` gives while `DONE = 0`, for draw number `n` (10_state.md R31).
DESIGN CHOICE (notes/assumptions/4.md). -/
opaque Config.freeResult : Nat → Word

/-- What the read of an element gives that a host write races, for draw number `n` (20_memory.md R60).
DESIGN CHOICE (notes/assumptions/5.md). -/
opaque Config.racedElem : Nat → Word

/-- What `buf_idx` shows while `buf_rd = 0`, for draw number `n`: 30_encoding.md R70 gives it only as the index of the
read. DESIGN CHOICE (notes/assumptions/27.md). -/
opaque Config.freeBufIdx : Nat → Word

/-- What element `i` of the caller's buffer holds before the host writes it. The spec gives no value.
DESIGN CHOICE (notes/assumptions/6.md). -/
opaque Config.unwrittenElem : Nat → Word

end Sys2Proof
end

