-- ==== Sys2Proof/Syntax.lean ====
section
/-! DEFINITION. The one command of the block (30_encoding.md R74; spec/opcode_table.json). -/

namespace Sys2Proof

/-- A command that names an operation, one constructor per row of the opcode table. -/
inductive Instr where
  /-- `COMPUTE SIZE, LEN`: the CRC of the first `len` elements of a buffer of `size` elements (41_sequencer.md R131).
  Both operands are unsigned 32-bit values, taken as presented (30_encoding.md R78). -/
  | compute (size len : Word)
  deriving DecidableEq, Repr

end Sys2Proof
end

