-- ==== Sys2Proof/WellFormed.lean ====
section
/-! DEFINITION. Which command words are well formed, and which instructions (30_encoding.md R73 to R78). -/

namespace Sys2Proof

/-- `OP`, bits [3:0] of `CTRL` (30_encoding.md R73). -/
def CommandWords.opField (c : CommandWords) : BitVec 4 := c.ctrl.extractLsb' 0 4

/-- `RSVD`, bits [31:4] of `CTRL` (30_encoding.md R73). -/
def CommandWords.rsvdField (c : CommandWords) : BitVec 28 := c.ctrl.extractLsb' 4 28

/-- The check on `OP`: only 0x1 names an operation (30_encoding.md R74). -/
def CommandWords.opNamed (c : CommandWords) : Bool := c.opField == 0x1#4

/-- The check on `RSVD`: it must be 0 (30_encoding.md R73). -/
def CommandWords.rsvdClear (c : CommandWords) : Bool := c.rsvdField == 0#28

/-- The words name an operation (30_encoding.md R75). `SIZE` and `LEN` admit every value (R72). -/
def CommandWords.wellFormed (c : CommandWords) : Bool := c.opNamed && c.rsvdClear

/-- Every operand value is admitted (30_encoding.md R72, R78): `LEN > SIZE` is an error of the run, not of the form. -/
def Instr.wellFormed : Instr → Bool
  | .compute _ _ => true

end Sys2Proof
end

