-- ==== Sys2Proof/Decode.lean ====
section
/-! DEFINITION. Decoding a command, total on every 96 bits (30_encoding.md R77), and the encoder beside it. The command
port carries three whole words, so the spec gives no byte order for them and none is used (20_memory.md R54). -/

namespace Sys2Proof

/-- What a command decodes to (30_encoding.md R77). -/
inductive Command where
  /-- The words name an operation. -/
  | instr (i : Instr)
  /-- `ILLEGAL(CTRL)`: every other command, refused by the block with `ILLEGAL_COMMAND` (60_exceptions.md R164). -/
  | illegal (ctrl : Word)
  deriving DecidableEq, Repr

/-- The one `CTRL` word that names an operation (30_encoding.md R74). -/
def ctrlCompute : Word := 0x00000001#32

/-- `decode(ctrl, size, len)` of 30_encoding.md R77. -/
def decode (c : CommandWords) : Command :=
  if c.ctrl = ctrlCompute then .instr (.compute c.size c.len) else .illegal c.ctrl

/-- The words of an instruction (30_encoding.md R72, R74; opcode_table.json row COMPUTE). -/
def encode : Instr → CommandWords
  | .compute size len => ⟨ctrlCompute, size, len⟩

/-- The 96 bits of a command, `CTRL` lowest (30_encoding.md R72). -/
def CommandWords.toBits (c : CommandWords) : BitVec 96 := c.len ++ c.size ++ c.ctrl

/-- The three words of 96 bits (30_encoding.md R72). -/
def CommandWords.ofBits (b : BitVec 96) : CommandWords :=
  ⟨b.extractLsb' 0 32, b.extractLsb' 32 32, b.extractLsb' 64 32⟩

/-- The command's words whose bits are the low `nbits` of `w`, every bit above them 0. -/
def tableWords (nbits w : Nat) : CommandWords := .ofBits (BitVec.ofNat 96 (w % 2 ^ nbits))

/-- The instruction in a decoded command, if it names one. -/
def Command.instr? : Command → Option Instr
  | .instr i => some i
  | .illegal _ => none

/-- The instruction the decoder reads from the table's bits. -/
def decodeTableWord (nbits w : Nat) : Option Instr := (decode (tableWords nbits w)).instr?

end Sys2Proof
end

