-- ==== Sys2Proof/Machine/State.lean ====
section
/-! DEFINITION. The state of the block, of its input ports, and of the two agents outside it: the host with its buffer,
and the observer sink (10_state.md R20; 30_encoding.md R70; 41_sequencer.md R130). -/

namespace Sys2Proof.Machine

/-- The sequencer phase (10_state.md R27). -/
inductive Phase where
  /-- No run: a command may be accepted. -/
  | idle
  /-- A run is in progress: `BUSY = 1`. -/
  | run
  deriving DecidableEq, Repr

/-- The values of `ERR` (60_exceptions.md R165). -/
inductive ErrCode where
  | none
  | outOfBounds
  /-- Never produced (60_exceptions.md R162). -/
  | invalidArgument
  | illegalCommand
  deriving DecidableEq, Repr

/-- The `CRC` register with its storage: `STORE_W` is 32 or 16 and nothing else (00_scope.md R8, 10_state.md R22), so the
constructor is the parameter. -/
inductive CrcReg where
  | w32 (c : BitVec 32)
  | w16 (c : BitVec 16)
  deriving DecidableEq, Repr

/-- `obs_kind` (30_encoding.md R82). -/
inductive ObsKind where
  | elem
  | final
  deriving DecidableEq, Repr

/-- An observer record (30_encoding.md R82). -/
structure ObsRecord where
  kind : ObsKind
  idx : Word
  input : Word
  crc : Word
  deriving DecidableEq, Repr

/-- A line of a host program (30_encoding.md R83). -/
inductive HostLine where
  /-- `CMD ctrl, size, len`: present the words and hold them until they are accepted (notes/assumptions/12.md). -/
  | cmd (c : CommandWords)
  /-- `BUFW i, v`: write element `i` of the caller's buffer. -/
  | bufw (i v : Word)
  /-- `WAIT`: wait until `STATUS.BUSY = 0`. -/
  | wait
  /-- `RDSTAT name`. -/
  | rdstat (name : String)
  /-- `RDRES name`. -/
  | rdres (name : String)
  /-- `RESET`: assert reset. -/
  | reset
  deriving DecidableEq, Repr

/-- Who moves next (70_reset_and_hazards.md R200), with the host's moves that are not a line of its program. -/
inductive Turn where
  /-- The sequencer takes the step that is enabled, if one is. -/
  | block
  /-- The host goes on with its program. -/
  | host
  /-- The host asserts `rst` (70_reset_and_hazards.md R190), at any moment. -/
  | assertRst
  /-- The host withdraws the command it presents (70_reset_and_hazards.md R195). -/
  | withdraw
  /-- The host reads `STATUS` into its variable `name`, at any time (10_state.md R30). -/
  | readStatus (name : String)
  /-- The host reads `RESULT` into its variable `name`, at any time (10_state.md R31). -/
  | readResult (name : String)
  /-- The host issues a buffer write that is not completed yet (20_memory.md R60). -/
  | issueWrite (i v : Word)
  /-- The oldest issued write completes (20_memory.md R59). -/
  | landWrite
  deriving DecidableEq, Repr

/-- The written elements of the caller's buffer: element index and value, indices strictly rising
(20_memory.md R50). An index that is not listed has not been written. -/
abbrev Memory := List (Nat × Word)

/-- Why the machine stops with a fault. -/
inductive Fault where
  /-- Raised by the sequencer in `RUN` with `IDX > LEN_L`: 41_sequencer.md R133 says that this never holds and gives no
  step for it, so the block is stuck. Safe: no run from reset reaches it (notes/assumptions/16.md). -/
  | indexPastLength
  deriving DecidableEq, Repr

/-- Why the model gives no next state. -/
inductive Refusal where
  /-- Raised by an arm of `exec` for an instruction that has no meaning yet. Safe. -/
  | notModelled (mnemonic : String)
  /-- Raised by the element step that reads past the real end of the caller's buffer: the host gave a `SIZE` larger than
  its buffer, which 93_implementation_defined.md I7 puts outside the model (`refuse`). Safe (notes/assumptions/7.md). -/
  | bufferReadPastEnd
  /-- Raised by a host write to an element that its buffer does not have: `MemWrite` is a write of an element of the
  buffer (00_scope.md R12), and the spec gives no other. Safe (notes/assumptions/7.md). -/
  | hostWritePastEnd
  deriving DecidableEq, Repr

/-- The machine: the block's registers (10_state.md R20), its parameter `OBS_EN`, its input ports (30_encoding.md R70), the
caller's buffer and the host, the order of turns, and what a claim observes (41_sequencer.md R146). -/
structure State where
  /-- `CRC`. -/
  crc : CrcReg
  /-- `PHASE`. -/
  phase : Phase
  /-- `IDX`, the index of the next element of the run (10_state.md R25). -/
  idx : Word
  /-- `LEN_L`, the latched length of the run (10_state.md R26). -/
  lenL : Word
  /-- `DONE`. -/
  done : Bool
  /-- `ERR`. -/
  err : ErrCode
  /-- `OBS_EN`, a parameter: no step changes it (00_scope.md R8). -/
  obsEn : Bool
  /-- The `rst` port. -/
  rst : Bool
  /-- The `cmd_valid` port. -/
  cmdValid : Bool
  /-- The `cmd_ctrl`, `cmd_size` and `cmd_len` ports. -/
  cmd : CommandWords
  /-- What the host has written to its buffer. -/
  mem : Memory
  /-- How many elements the caller's buffer really holds (41_sequencer.md R144). -/
  extent : Nat
  /-- The host's writes that are issued and not completed, oldest first (20_memory.md R60). -/
  outstanding : List (Word × Word)
  /-- The elements of the present run that a host write races (20_memory.md R60), read only through membership. -/
  raced : List Word
  /-- The lines the host has still to do (30_encoding.md R83). -/
  program : List HostLine
  /-- What the host read into its own variables, newest first (30_encoding.md R83). -/
  hostVars : List (String × Word)
  /-- Who moves next, and after that, to the end of the list (70_reset_and_hazards.md R200). -/
  turns : List Turn
  /-- The observer records emitted so far, oldest first (60_exceptions.md R175). -/
  obsLog : List ObsRecord
  /-- The element indices read so far, oldest first (41_sequencer.md R146). -/
  reads : List Word
  /-- The model's own: the number of the next free value. -/
  draws : Nat
  deriving DecidableEq, Repr

/-- The machine right after reset (10_state.md R35): `IDLE`, `DONE = 0`, `ERR = NONE`, and draws in `CRC`, `IDX` and
`LEN_L`. Nothing is presented, written, planned or observed yet. DESIGN CHOICE (notes/assumptions/3.md, 19.md). -/
def State.reset : State where
  crc := .w32 (Config.freeCrc 0)
  phase := .idle
  idx := Config.freeIdx 0
  lenL := Config.freeLen 0
  done := false
  err := .none
  obsEn := true
  rst := false
  cmdValid := false
  cmd := ⟨0, 0, 0⟩
  mem := []
  extent := 0xFFFFFFFF
  outstanding := []
  raced := []
  program := []
  hostVars := []
  turns := []
  obsLog := []
  reads := []
  draws := 1

end Sys2Proof.Machine
end

