-- ==== Sys2Proof/Machine/Datapath.lean ====
section
/-! DEFINITION. The datapath: the four operations, their composition and the whole function (40_datapath.md), at any
storage width `w`; the block admits `w = 32` and `w = 16` (00_scope.md R8). -/

namespace Sys2Proof.Machine

/-- `K_FB`, bits 4 to 7 (00_scope.md R13). -/
def kFb (w : Nat) : BitVec w := 0x0F0#w

/-- `K_TOP`, bit 8 (00_scope.md R13). -/
def kTop (w : Nat) : BitVec w := 0x100#w

/-- `K_FIN`, bits 0, 1, 2, 3, 5, 7 and 8 (00_scope.md R13; 90_conflicts.md C1). -/
def kFin (w : Nat) : BitVec w := 0x1AF#w

/-- `XIN(c, v)`, the input XOR: over all 32 bits of `v`, cut to the register only (40_datapath.md R101). -/
def xin {w : Nat} (c : BitVec w) (v : Word) : BitVec w := (c.setWidth 32 ^^^ v).setWidth w

/-- `FB(c)`, the conditional polynomial XOR on bit 1 (40_datapath.md R102). -/
def fb {w : Nat} (c : BitVec w) : BitVec w := if c.getLsbD 1 then c ^^^ kFb w else c

/-- `ROR1(c)`, the procedure of the source: shift right by one and OR the old bit 0 into bit 8
(40_datapath.md R104; 90_conflicts.md C5). -/
def ror1 {w : Nat} (c : BitVec w) : BitVec w := if c.getLsbD 0 then (c >>> 1) ||| kTop w else c >>> 1

/-- `FIN(c)`, the post-inversion XOR (40_datapath.md R105). -/
def fin {w : Nat} (c : BitVec w) : BitVec w := c ^^^ kFin w

/-- `STEP(c, v)`, one element (40_datapath.md R106). -/
def stepElem {w : Nat} (c : BitVec w) (v : Word) : BitVec w := ror1 (fb (xin c v))

/-- The register after the elements `vs`, from `c`, in order (40_datapath.md R108). -/
def feed {w : Nat} (c : BitVec w) (vs : List Word) : BitVec w := vs.foldl stepElem c

/-- `CRC9(buf, n)`, undefined for `n > |buf|` (40_datapath.md R109). -/
def crc9 (w : Nat) (buf : List Word) (n : Nat) : Option (BitVec w) :=
  if n ≤ buf.length then some (fin (feed 0 (buf.take n))) else none

/-- `STORE_W` of a register. -/
def CrcReg.width : CrcReg → Nat
  | .w32 _ => 32
  | .w16 _ => 16

/-- The register's contents as a number. -/
def CrcReg.bits (r : CrcReg) : BitVec r.width :=
  match r with
  | .w32 c => c
  | .w16 c => c

/-- `CRC <- v`: `v` is cut to the low `STORE_W` bits (00_scope.md R12). -/
def CrcReg.load (r : CrcReg) (v : Word) : CrcReg :=
  match r with
  | .w32 _ => .w32 v
  | .w16 _ => .w16 (v.setWidth 16)

/-- `zext_32(CRC)` (10_state.md R31). -/
def CrcReg.toWord : CrcReg → Word
  | .w32 c => c
  | .w16 c => c.setWidth 32

/-- `CRC <- STEP(CRC, v)` (41_sequencer.md R134). -/
def CrcReg.absorb (r : CrcReg) (v : Word) : CrcReg :=
  match r with
  | .w32 c => .w32 (stepElem c v)
  | .w16 c => .w16 (stepElem c v)

/-- `CRC <- FIN(CRC)` (41_sequencer.md R135). -/
def CrcReg.finish : CrcReg → CrcReg
  | .w32 c => .w32 (fin c)
  | .w16 c => .w16 (fin c)

/-- The register after the elements `vs`, in order (40_datapath.md R108). -/
def CrcReg.feed (r : CrcReg) (vs : List Word) : CrcReg := vs.foldl CrcReg.absorb r

end Sys2Proof.Machine
end

