-- ==== Sys2Proof/Machine/Flags.lean ====
section
/-! DEFINITION. The flags and the output words the host reads (10_state.md R27 to R31; 30_encoding.md R70, R80, R81). -/

namespace Sys2Proof.Machine

/-- The two-bit code of an error (60_exceptions.md R165). -/
def ErrCode.bits : ErrCode → BitVec 2
  | .none => 0
  | .outOfBounds => 1
  | .invalidArgument => 2
  | .illegalCommand => 3

/-- `obs_kind` (30_encoding.md R82). -/
def ObsKind.bit : ObsKind → BitVec 1
  | .elem => 0
  | .final => 1

/-- `BUSY` (10_state.md R27). -/
def State.busy (s : State) : Bool := s.phase == .run

/-- The `cmd_ready` port (30_encoding.md R70). -/
def State.cmdReady (s : State) : Bool := s.phase == .idle

/-- The `status` port: `BUSY` in bit 0, `DONE` in bit 1, `ERR` in bits [3:2], 0 above (10_state.md R30). -/
def State.statusWord (s : State) : Word :=
  0#28 ++ s.err.bits ++ BitVec.ofBool s.done ++ BitVec.ofBool s.busy

/-- The `result` port: `zext_32(CRC)` while `DONE = 1`, a draw otherwise (10_state.md R31). -/
def State.resultWord (s : State) : Word := if s.done then s.crc.toWord else Config.freeResult s.draws

end Sys2Proof.Machine
end

