-- ==== Sys2Proof/Machine/Operands.lean ====
section
/-! DEFINITION. The operands: the check on `SIZE` and `LEN`, the memory of the caller's buffer, and the element read
(41_sequencer.md R132; 20_memory.md). -/

namespace Sys2Proof.Machine

/-- `LEN ≤ SIZE`, compared as unsigned values (60_exceptions.md R161). -/
def lenWithinSize (size len : Word) : Bool := decide (len.toNat ≤ size.toNat)

/-- The canonical form of the buffer: indices strictly rising. -/
abbrev Memory.wf (m : Memory) : Prop := m.Pairwise (fun p q => p.1 < q.1)

/-- Element `a`, if the host has written it. -/
def Memory.read : Memory → Nat → Option Word
  | [], _ => none
  | (b, v) :: m, a => if a = b then some v else Memory.read m a

/-- `MemWrite(a, 4, v)` (00_scope.md R12). -/
def Memory.write : Memory → Nat → Word → Memory
  | [], a, v => [(a, v)]
  | (b, u) :: m, a, v =>
    if a < b then (a, v) :: (b, u) :: m
    else if a = b then (a, v) :: m
    else (b, u) :: Memory.write m a v

/-- What element `i` of the buffer holds; an element nobody has written holds a free value of its index
(notes/assumptions/6.md). -/
def State.elemAt (s : State) (i : Nat) : Word := (s.mem.read i).getD (Config.unwrittenElem i)

/-- Elements `i` to `i + n - 1` of the buffer, in order. -/
def State.elemsFrom (s : State) (i n : Nat) : List Word := (List.range' i n).map s.elemAt

/-- `BufRead(IDX)`: the element as the host stored it (20_memory.md R52), or a draw if a host write races the read
(R60). -/
def State.bufRead (s : State) : Word :=
  if s.idx ∈ s.raced then Config.racedElem s.draws else s.elemAt s.idx.toNat

end Sys2Proof.Machine
end

