-- ==== Sys2Proof/Machine/Ops.lean ====
section
/-! DEFINITION. The named operations on the state. Ending a command with an error (`raise Error`, 60_exceptions.md R163) is
`State.raiseError`; the block has no trap to enter and nothing to return from (R160, R168). -/

namespace Sys2Proof.Machine

/-! ## The block -/

/-- Acceptance ends the host's presentation (30_encoding.md R71, R83; notes/assumptions/11.md). -/
def State.takeCommand (s : State) : State := { s with cmdValid := false }

/-- `raise Error(code)`: `ERR <- code`, `DONE <- 0`, `PHASE` stays (60_exceptions.md R163). -/
def State.raiseError (s : State) (code : ErrCode) : State := { s with err := code, done := false }

/-- The writes not completed at acceptance to an element the run will read (20_memory.md R60). -/
def State.racedAtAccept (s : State) (len : Word) : List Word :=
  (s.outstanding.map Prod.fst).filter fun i => decide (i.toNat < len.toNat)

/-- The writes of a successful accept (41_sequencer.md R132). -/
def State.startRun (s : State) (len : Word) : State :=
  { s with
    done := false
    err := .none
    crc := s.crc.load 0
    idx := 0
    lenL := len
    phase := .run
    raced := s.racedAtAccept len }

/-- The `ELEM` record of reading `v` (30_encoding.md R82, 60_exceptions.md R176). -/
def State.elemRecord (s : State) (v : Word) : ObsRecord := ⟨.elem, s.idx, v, (s.crc.absorb v).toWord⟩

/-- The `FINAL` record (30_encoding.md R82, 60_exceptions.md R177). -/
def State.finalRecord (s : State) : ObsRecord := ⟨.final, s.lenL, 0, s.crc.finish.toWord⟩

/-- `emit Obs(...)`, only if `OBS_EN` (60_exceptions.md R175). -/
def State.emit (s : State) (r : ObsRecord) : State :=
  { s with obsLog := if s.obsEn then s.obsLog ++ [r] else s.obsLog }

/-- The writes of an element step that reads `v` (41_sequencer.md R134). -/
def State.absorb (s : State) (v : Word) : State :=
  { s.emit (s.elemRecord v) with
    crc := s.crc.absorb v
    idx := s.idx + 1
    reads := s.reads ++ [s.idx]
    draws := s.draws + 1 }

/-- The writes of the final step (41_sequencer.md R135). -/
def State.finish (s : State) : State :=
  { s.emit s.finalRecord with crc := s.crc.finish, done := true, phase := .idle, raced := [] }

/-- The reset state of 10_state.md R35, from any state (70_reset_and_hazards.md R190): a run is given up, and what the
host holds, its presented command among it, stays. The step that resets also releases `rst`
(notes/assumptions/10.md). -/
def State.resetBlock (s : State) : State :=
  { s with
    phase := .idle
    done := false
    err := .none
    crc := s.crc.load (Config.freeCrc s.draws)
    idx := Config.freeIdx s.draws
    lenL := Config.freeLen s.draws
    raced := []
    rst := false
    draws := s.draws + 1 }

/-! ## The host -/

/-- A host write to `i` races the run's read of `i` if that read is still to come (20_memory.md R60). A write complete before
acceptance races nothing, also if it comes after the presentation of the `COMPUTE`: R59 lets the run see it, where
70_reset_and_hazards.md R197 calls its read a draw. DESIGN CHOICE (notes/assumptions/28.md). -/
def State.noteWrite (s : State) (i : Word) : State :=
  { s with
    raced :=
      if s.phase = .run ∧ s.idx.toNat ≤ i.toNat ∧ i.toNat < s.lenL.toNat then i :: s.raced else s.raced }

/-- Element `i` now holds `v`. -/
def State.putElem (s : State) (i v : Word) : State := { s with mem := s.mem.write i.toNat v }

/-- All issued writes complete, in the order of issue (notes/assumptions/20.md). -/
def State.landAll (s : State) : State :=
  { s with mem := s.outstanding.foldl (fun m p => Memory.write m p.1.toNat p.2) s.mem, outstanding := [] }

/-- The host's own variable `name` takes the value `v` (30_encoding.md R83). -/
def State.setVar (s : State) (name : String) (v : Word) : State := { s with hostVars := (name, v) :: s.hostVars }

/-- What the host's variable `name` holds. -/
def State.hostVar (s : State) (name : String) : Option Word := s.hostVars.lookup name

/-- The host presents the words on the command port (30_encoding.md R71). -/
def State.present (s : State) (c : CommandWords) : State := { s with cmdValid := true, cmd := c }

/-! ## The other output ports (30_encoding.md R70) -/

/-- `buf_rd`: the sequencer's step reads an element (41_sequencer.md R133). It shows so in every state in which that is the
sequencer's next step, also while another agent moves first; and it shows 0 while `rst` is asserted, for the step that resets
reads nothing (70_reset_and_hazards.md R190). Both are DESIGN CHOICE (notes/assumptions/27.md). -/
def State.bufRd (s : State) : Bool := !s.rst && s.busy && decide (s.idx.toNat < s.lenL.toNat)

/-- `buf_idx`: the index of the read (41_sequencer.md R141). While `buf_rd = 0` the spec gives it no value and it shows a
free one: DESIGN CHOICE (notes/assumptions/27.md). -/
def State.bufIdx (s : State) : Word := if s.bufRd then s.idx else Config.freeBufIdx s.draws

/-- `obs_valid` and the record with it: what the sequencer's step emits (60_exceptions.md R175). The port shows it in every
state in which that is the sequencer's next step, also while another agent moves first, and only the step emits it; and it
shows none while `rst` is asserted, for the step that resets emits nothing (70_reset_and_hazards.md R190). Both are
DESIGN CHOICE (notes/assumptions/27.md). -/
def State.obsPort (s : State) : Option ObsRecord :=
  if s.obsEn ∧ s.rst = false ∧ s.phase = .run then
    if s.idx.toNat < s.lenL.toNat then some (s.elemRecord s.bufRead)
    else if s.idx = s.lenL then some s.finalRecord
    else none
  else none

end Sys2Proof.Machine
end

