-- ==== Sys2Proof/Machine/Compute.lean ====
section
/-! DEFINITION. What the block does with a presented command (41_sequencer.md R131, R132; 60_exceptions.md R161, R164). -/

namespace Sys2Proof.Machine

/-- `COMPUTE SIZE, LEN`: the accept step, which starts the run or ends the command with `OUT_OF_BOUNDS`
(41_sequencer.md R132). The run goes on with the element and final steps. While `BUSY = 1` the command is held: nothing
changes (R139). -/
def execCompute (size len : Word) (s : State) : Host.Outcome State Fault Refusal :=
  if s.cmdReady then
    if lenWithinSize size len then .next (s.takeCommand.startRun len)
    else .next (s.takeCommand.raiseError .outOfBounds)
  else .next s

/-- A command whose `CTRL` names no operation: the accept step ends it with `ILLEGAL_COMMAND`, whatever its `SIZE` and
`LEN` (60_exceptions.md R164, R166). While `BUSY = 1` it is held (41_sequencer.md R139). -/
def execIllegal (s : State) : Host.Outcome State Fault Refusal :=
  if s.cmdReady then .next (s.takeCommand.raiseError .illegalCommand) else .next s

end Sys2Proof.Machine
end

