-- ==== Sys2Proof/Machine/Sequencer.lean ====
section
/-! DEFINITION. The sequencer: accept, element and final steps, and which of them is enabled (41_sequencer.md). -/

namespace Sys2Proof.Machine

/-- The accept step on the words of the command port (41_sequencer.md R132). -/
def acceptStep (s : State) : Host.Outcome State Fault Refusal :=
  match decode s.cmd with
  | .instr i => exec i s
  | .illegal _ => execIllegal s

/-- The element step (41_sequencer.md R134). A read past the real end of the caller's buffer is outside the model
(R144; 93_implementation_defined.md I7). -/
def elementStep (s : State) : Host.Outcome State Fault Refusal :=
  if s.idx.toNat < s.extent then .next (s.absorb s.bufRead) else .refused .bufferReadPastEnd

/-- The final step (41_sequencer.md R135). -/
def finalStep (s : State) : Host.Outcome State Fault Refusal := .next s.finish

/-- The step of a run (41_sequencer.md R133): element while `IDX < LEN_L`, final at `IDX = LEN_L`, none above. -/
def runStep (s : State) : Host.Outcome State Fault Refusal :=
  if s.idx.toNat < s.lenL.toNat then elementStep s
  else if s.idx = s.lenL then finalStep s
  else .fault .indexPastLength

/-- A step of the sequencer is enabled (41_sequencer.md R132, R133, R138). -/
def State.blockEnabled (s : State) : Bool := s.busy || s.cmdValid

/-- The sequencer's next step; in `IDLE` with no command presented it takes none (41_sequencer.md R138). -/
def sequencerStep (s : State) : Host.Outcome State Fault Refusal :=
  match s.phase with
  | .run => runStep s
  | .idle => if s.cmdValid then acceptStep s else .next s

end Sys2Proof.Machine
end

