-- ==== Sys2Proof/Machine/HostProgram.lean ====
section
/-! DEFINITION. The host: its lines, its other moves, and the text of its programs (30_encoding.md R83, R84;
41_sequencer.md R143). -/

namespace Sys2Proof.Machine

/-- A write that completes in the step it is issued in, after every earlier one (20_memory.md R59). -/
def hostWrite (i v : Word) (s : State) : Host.Outcome State Fault Refusal :=
  if i.toNat < s.extent then .next ((s.noteWrite i).landAll.putElem i v) else .refused .hostWritePastEnd

/-- The host reads `STATUS` into its variable `name`, with no effect on the block (10_state.md R30). -/
def readStatus (name : String) (s : State) : Host.Outcome State Fault Refusal := .next (s.setVar name s.statusWord)

/-- The host reads `RESULT` into its variable `name`, with no effect on the block (10_state.md R31); the read takes the
number of its draw (notes/assumptions/4.md). -/
def readResult (name : String) (s : State) : Host.Outcome State Fault Refusal :=
  .next { s.setVar name s.resultWord with draws := s.draws + 1 }

/-- The effect of a line of the host's program (30_encoding.md R83). `WAIT` stays in the program while `BUSY = 1`. A `CMD`
line leaves the program when it presents its words, and the next line waits for the presentation to end: at acceptance
(notes/assumptions/12.md), or at a withdrawal, after which the host goes on with the next line: DESIGN CHOICE
(notes/assumptions/26.md). -/
def hostLine (l : HostLine) (rest : List HostLine) (s : State) : Host.Outcome State Fault Refusal :=
  match l with
  | .cmd c => .next ({ s with program := rest }.present c)
  | .bufw i v => hostWrite i v { s with program := rest }
  | .wait => if s.busy then .next s else .next { s with program := rest }
  | .rdstat name => readStatus name { s with program := rest }
  | .rdres name => readResult name { s with program := rest }
  | .reset => .next { s with program := rest, rst := true }

/-- The host's move: the next line of its program. A `CMD` line is done when its command is accepted, so while the host
presents a command it does no further line (30_encoding.md R71, R83; notes/assumptions/12.md). What the host does meanwhile
outside its program are turns of their own: it reads `STATUS` and `RESULT`, writes its buffer, withdraws the command or
asserts `rst`. -/
def hostStep (s : State) : Host.Outcome State Fault Refusal :=
  if s.cmdValid then .next s
  else
    match s.program with
    | [] => .next s
    | l :: rest => hostLine l rest s

/-- The oldest issued write completes (20_memory.md R59). -/
def landOldest (s : State) : Host.Outcome State Fault Refusal :=
  match s.outstanding with
  | [] => .next s
  | (i, v) :: rest => .next ({ s with outstanding := rest }.putElem i v)

/-- The host issues a write and goes on before it completes (20_memory.md R60). -/
def issueWrite (i v : Word) (s : State) : Host.Outcome State Fault Refusal :=
  if i.toNat < s.extent then .next { s.noteWrite i with outstanding := s.outstanding ++ [(i, v)] }
  else .refused .hostWritePastEnd

/-- The host withdraws the command it presents: it has no effect (70_reset_and_hazards.md R195). The spec does not say
what the host does next; its program goes on with the line after the `CMD`: DESIGN CHOICE (notes/assumptions/26.md). -/
def withdrawCommand (s : State) : Host.Outcome State Fault Refusal := .next { s with cmdValid := false }

/-- The host asserts `rst` (70_reset_and_hazards.md R190). -/
def assertReset (s : State) : Host.Outcome State Fault Refusal := .next { s with rst := true }

/-! ## Programs as text (30_encoding.md R83, R84) -/

/-- `COMPUTE size, len`, the pseudo-instruction (30_encoding.md R84). -/
def pseudoCompute (size len : Word) : List HostLine := [.cmd (encode (.compute size len))]

/-- `BUFFILL n, v` (30_encoding.md R84). -/
def pseudoBufFill (n : Nat) (v : Word) : List HostLine := (List.range n).map fun i => .bufw (BitVec.ofNat 32 i) v

/-- `CRC size, len, name` (30_encoding.md R84). -/
def pseudoCrc (size len : Word) (name : String) : List HostLine :=
  pseudoCompute size len ++ [.wait, .rdres name]

/-- The value of a digit, in either base. -/
def digitValue (c : Char) : Option Nat :=
  if '0' ≤ c ∧ c ≤ '9' then some (c.toNat - '0'.toNat)
  else if 'a' ≤ c ∧ c ≤ 'f' then some (c.toNat - 'a'.toNat + 10)
  else if 'A' ≤ c ∧ c ≤ 'F' then some (c.toNat - 'A'.toNat + 10)
  else none

/-- The digits of a number in base `base`, on top of `acc`. -/
def digitsValue (base acc : Nat) : List Char → Option Nat
  | [] => some acc
  | c :: cs =>
    match digitValue c with
    | some d => if d < base then digitsValue base (acc * base + d) cs else none
    | none => none

/-- A number is decimal, or hexadecimal after `0x` (30_encoding.md R83). R83 and R84 give a number no bound; here one that no
word holds, the count of a `BUFFILL` too, is no number, and its text does not assemble: DESIGN CHOICE
(notes/assumptions/29.md). -/
def parseNumber (t : List Char) : Option Word :=
  let value :=
    match t with
    | [] => none
    | '0' :: 'x' :: c :: cs => digitsValue 16 0 (c :: cs)
    | c :: cs => digitsValue 10 0 (c :: cs)
  match value with
  | some n => if n ≤ 0xFFFFFFFF then some (BitVec.ofNat 32 n) else none
  | none => none

/-- The words of a line, a comma being a word of its own; `cur` is the word being read, backwards (what parts the words:
notes/assumptions/29.md). -/
def lineWords (cur : List Char) : List Char → List (List Char)
  | [] => if cur.isEmpty then [] else [cur.reverse]
  | c :: cs =>
    let done := if cur.isEmpty then [] else [cur.reverse]
    if c = ' ' ∨ c = '\t' ∨ c = '\r' then done ++ lineWords [] cs
    else if c = ',' then done ++ [','] :: lineWords [] cs
    else lineWords (c :: cur) cs

/-- Operands of a line: words with one comma between each two. -/
def splitOperands : List (List Char) → Option (List (List Char))
  | [] => some []
  | [t] => if t = [','] then none else some [t]
  | t :: sep :: ts =>
    if t = [','] ∨ sep ≠ [','] ∨ ts = [] then none
    else (splitOperands ts).map (t :: ·)

/-- The lines that a mnemonic with its operands stands for, pseudo-instructions expanded (30_encoding.md R83, R84). -/
def assembleWords (mnemonic : String) (ops : List (List Char)) : Option (List HostLine) :=
  match mnemonic, ops with
  | "CMD", [a, b, c] =>
    match parseNumber a, parseNumber b, parseNumber c with
    | some ctrl, some size, some len => some [.cmd ⟨ctrl, size, len⟩]
    | _, _, _ => none
  | "BUFW", [a, b] =>
    match parseNumber a, parseNumber b with
    | some i, some v => some [.bufw i v]
    | _, _ => none
  | "WAIT", [] => some [.wait]
  | "RDSTAT", [n] => some [.rdstat (String.ofList n)]
  | "RDRES", [n] => some [.rdres (String.ofList n)]
  | "RESET", [] => some [.reset]
  | "COMPUTE", [a, b] =>
    match parseNumber a, parseNumber b with
    | some size, some len => some (pseudoCompute size len)
    | _, _ => none
  | "BUFFILL", [a, b] =>
    match parseNumber a, parseNumber b with
    | some n, some v => some (pseudoBufFill n.toNat v)
    | _, _ => none
  | "CRC", [a, b, n] =>
    match parseNumber a, parseNumber b with
    | some size, some len => some (pseudoCrc size len (String.ofList n))
    | _, _ => none
  | _, _ => none

/-- One line of a program: `;` begins a comment (30_encoding.md R83), and a line may be empty (notes/assumptions/29.md). -/
def assembleLine (line : List Char) : Option (List HostLine) :=
  match lineWords [] (line.takeWhile (· != ';')) with
  | [] => some []
  | m :: ts => (splitOperands ts).bind (assembleWords (String.ofList m))

/-- The lines of a text, up to each line break; `cur` is the line being read, backwards. -/
def textLines (cur : List Char) : List Char → List (List Char)
  | [] => [cur.reverse]
  | c :: cs => if c = '\n' then cur.reverse :: textLines [] cs else textLines (c :: cur) cs

/-- A host program from its text, one operation a line (30_encoding.md R83). -/
def assemble (text : String) : Option (List HostLine) :=
  ((textLines [] text.toList).mapM assembleLine).map List.flatten

end Sys2Proof.Machine
end

