-- ==== Sys2Proof/Machine/System.lean ====
section
/-! DEFINITION. Who moves next (70_reset_and_hazards.md R190, R200), and how a command comes to the command port. -/

namespace Sys2Proof.Machine

/-- A turn of one of the agents. -/
def takeTurn (t : Turn) (s : State) : Host.Outcome State Fault Refusal :=
  match t with
  | .block => sequencerStep s
  | .host => hostStep s
  | .assertRst => assertReset s
  | .withdraw => withdrawCommand s
  | .readStatus name => readStatus name s
  | .readResult name => readResult name s
  | .issueWrite i v => issueWrite i v s
  | .landWrite => landOldest s

/-- Whose turn it is when no turn is listed: the sequencer's if it has a step to take, so that it is never starved
(70_reset_and_hazards.md R200), else the host's. -/
def State.defaultTurn (s : State) : Turn := if s.blockEnabled then .block else .host

/-- One step of the whole: reset before anything else (70_reset_and_hazards.md R190), else the next turn. -/
def systemStep (s : State) : Host.Outcome State Fault Refusal :=
  if s.rst then .next s.resetBlock
  else
    match s.turns with
    | [] => takeTurn s.defaultTurn s
    | t :: ts => takeTurn t { s with turns := ts }

/-- The words presented to a block that is ready for them, with no turn and no reset before them. -/
def State.offer (s : State) (c : CommandWords) : State :=
  { s.present c with phase := .idle, rst := false, turns := [] }

end Sys2Proof.Machine
end

