-- ==== Sys2Proof/Machine/Step.lean ====
section
/-! DEFINITION. The machine's step, and the state whose next step runs a given command. -/

namespace Sys2Proof.Machine

/-- One step of one agent. -/
def step (s : State) : Host.Outcome State Fault Refusal := systemStep s

/-- `s` with the command whose bits are `w` presented on the command port, where the next accept step takes it
(30_encoding.md R71; notes/assumptions/13.md). -/
def State.withFetchWord (s : State) (nbits w : Nat) : State := s.offer (tableWords nbits w)

end Sys2Proof.Machine
end

