-- ==== Sys2Proof/Safety.lean ====
section
/-! DEFINITION. What the statements say of good states: the invariant of the machine, a run that follows the buffer the
host gave it, and the premises on the host (41_sequencer.md R143, 70_reset_and_hazards.md R197). -/

namespace Sys2Proof.Machine

/-- What every step keeps and reset establishes. -/
structure State.Inv (s : State) : Prop where
  /-- The buffer is in canonical form. -/
  memWf : s.mem.wf
  /-- Every element the host wrote is one its buffer has (41_sequencer.md R144). -/
  memInside : ∀ p ∈ s.mem, p.1 < s.extent
  /-- So is every write still to complete. -/
  outstandingInside : ∀ p ∈ s.outstanding, p.1.toNat < s.extent
  /-- `INVALID_ARGUMENT` is never produced (60_exceptions.md R162). -/
  errProduced : s.err ≠ .invalidArgument
  /-- `DONE = 1` is the end of a run that succeeded (10_state.md R28, R29; 41_sequencer.md R145). -/
  doneEnds : s.done = true → s.phase = .idle ∧ s.err = .none
  /-- During a run `DONE` and `ERR` are 0 (10_state.md R29), and `IDX > LEN_L` never holds (41_sequencer.md R133). -/
  runInside : s.phase = .run → s.done = false ∧ s.err = .none ∧ s.idx.toNat ≤ s.lenL.toNat
  /-- Only a run has raced elements, and only elements it reads (20_memory.md R60). -/
  racedInside : ∀ i ∈ s.raced, s.phase = .run ∧ i.toNat < s.lenL.toNat

/-- No reset is asserted and no turn is listed: the sequencer moves whenever it has a step to take. -/
def State.Undisturbed (s : State) : Prop := s.rst = false ∧ s.turns = []

/-- A run follows the elements `vs`: it has fed the ones before `IDX` to the register, and the buffer holds the others,
with no host write on its way to them (20_memory.md R53, R59; for a write after presentation, notes/assumptions/28.md). -/
structure State.Follows (s : State) (vs : List Word) : Prop where
  running : s.phase = .run
  lengthLatched : vs.length = s.lenL.toNat
  idxInside : s.idx.toNat ≤ vs.length
  fed : s.crc = (s.crc.load 0).feed (vs.take s.idx.toNat)
  ahead : ∀ i, s.idx.toNat ≤ i → i < vs.length → vs[i]? = some (s.elemAt i)
  settled : ∀ p ∈ s.outstanding, s.idx.toNat ≤ p.1.toNat → vs.length ≤ p.1.toNat
  raceFree : s.raced = []

/-- `n` steps, as far as they go. -/
def stepN : Nat → State → Host.Outcome State Fault Refusal
  | 0, s => .next s
  | n + 1, s =>
    match step s with
    | .next t => stepN n t
    | .fault r => .fault r
    | .refused r => .refused r

/-- The same machine with the observer port absent and no record kept. -/
def State.withoutObserver (s : State) : State := { s with obsEn := false, obsLog := [] }

/-- A function on the next state of an outcome. -/
def mapNext (f : State → State) : Host.Outcome State Fault Refusal → Host.Outcome State Fault Refusal
  | .next s => .next (f s)
  | .fault r => .fault r
  | .refused r => .refused r

/-- The storage widths a model may take (00_scope.md R8). -/
def AdmittedWidth (w : Nat) : Prop := w = 32 ∨ w = 16

/-- `zext_32(CRC9(buf, n))` at this machine's `STORE_W` (40_datapath.md R109, 30_encoding.md R81). -/
def State.crc9Word (s : State) (buf : List Word) (n : Nat) : Option Word :=
  match s.crc with
  | .w32 _ => crc9 32 buf n
  | .w16 _ => (crc9 16 buf n).map (·.setWidth 32)

/-- The `ELEM` records of a run over `vs` from an all-zero register, in order (60_exceptions.md R176). -/
def State.elemRecords (s : State) (vs : List Word) : List ObsRecord :=
  (List.range vs.length).map fun i =>
    ⟨.elem, BitVec.ofNat 32 i, vs.getD i 0, ((s.crc.load 0).feed (vs.take (i + 1))).toWord⟩

/-- The run so far has read the values `vs`, one for each element below `IDX` and in order, and has fed them to a register
that began as zero; its reads come after `reads` and its records after `log`, a record for each element if the observer
port is there (20_memory.md R53; 60_exceptions.md R176). Nothing is said of races: `vs` is what the reads gave. -/
structure State.Ran (s : State) (reads : List Word) (log : List ObsRecord) (vs : List Word) : Prop where
  running : s.phase = .run
  idxReached : s.idx.toNat = vs.length
  idxInside : s.idx.toNat ≤ s.lenL.toNat
  fed : s.crc = (s.crc.load 0).feed vs
  readsSoFar : s.reads = reads ++ (List.range vs.length).map (BitVec.ofNat 32)
  logSoFar : s.obsLog = if s.obsEn then log ++ s.elemRecords vs else log

/-- The block is ready, nothing disturbs it, and the host presents `COMPUTE size, len` (30_encoding.md R71). -/
structure State.Offers (s : State) (size len : Word) : Prop where
  undisturbed : s.Undisturbed
  idle : s.phase = .idle
  valid : s.cmdValid = true
  words : s.cmd = encode (.compute size len)

/-- The host keeps its duties for a run of `len` elements of a buffer it calls `size` long: the length is within the
size, the buffer holds that many, and every write to them is complete (70_reset_and_hazards.md R193). A write after the
presentation is allowed if it is complete (20_memory.md R59; the model's choice, notes/assumptions/28.md). -/
structure State.Honest (s : State) (size len : Word) : Prop where
  within : len.toNat ≤ size.toNat
  held : len.toNat ≤ s.extent
  complete : ∀ p ∈ s.outstanding, len.toNat ≤ p.1.toNat

/-- The block's own registers (10_state.md R20). -/
def State.blockRegs (s : State) : CrcReg × Phase × Word × Word × Bool × ErrCode :=
  (s.crc, s.phase, s.idx, s.lenL, s.done, s.err)

end Sys2Proof.Machine
end

