-- ==== Sys2Proof/Certificates/Slice0/Obligations.lean ====
section
/-! DEFINITION. What is claimed of the machine, from the spec's rules. A statement about a free value (what the spec calls a
draw) holds whatever that value is. -/

open Sys2Proof Sys2Proof.Machine

/-! ## Decoding -/

/-- R77: every 96-bit command decodes to COMPUTE(SIZE, LEN) when CTRL = 0x00000001, else to ILLEGAL(CTRL). -/
def Obligations.DecodeIsTotal : Prop :=
  ∀ b : BitVec 96,
    decode (CommandWords.ofBits b) =
      if b.extractLsb' 0 32 = 0x00000001#32 then
        .instr (.compute (b.extractLsb' 32 32) (b.extractLsb' 64 32))
      else .illegal (b.extractLsb' 0 32)

/-- R73 to R75: a command is COMPUTE exactly when OP = 0x1 and RSVD = 0, which is what well-formedness checks. -/
def Obligations.ComputeNeedsOpOneAndClearRsvd : Prop :=
  ∀ c : CommandWords,
    ((∃ i, decode c = .instr i) ↔ c.ctrl.extractLsb' 0 4 = 0x1#4 ∧ c.ctrl.extractLsb' 4 28 = 0#28) ∧
    ((∃ i, decode c = .instr i) ↔ c.wellFormed = true)

/-- Decoding the 96 bits of an encoded well-formed instruction gives it back, and each legal command is the encoding of
the one instruction it decodes to: no bit of an encoding is dropped or free (R72, R77). -/
def Obligations.DecodeEncodeAgree : Prop :=
  (∀ i : Instr, i.wellFormed = true → decode (.ofBits (encode i).toBits) = .instr i) ∧
  (∀ (b : BitVec 96) (i : Instr), decode (.ofBits b) = .instr i → (encode i).toBits = b)

/-- Command words written out from R72 to R75 and the vectors of 95_test_vectors.md sections 2.7, 2.8 and 3. -/
def Obligations.SampleCommandsDecode : Prop :=
  decode (.ofBits 0x000000010000000100000001#96) = .instr (.compute 1 1) ∧
  decode (.ofBits 0x000003200000032000000001#96) = .instr (.compute 800 800) ∧
  decode (.ofBits 0x000000050000000400000001#96) = .instr (.compute 4 5) ∧
  decode (.ofBits 0x000000010000000100000000#96) = .illegal 0 ∧
  decode (.ofBits 0x000000010000000100000011#96) = .illegal 0x11 ∧
  decode (.ofBits 0x000000010000000180000001#96) = .illegal 0x80000001 ∧
  decodeTableWord 32 0x00000001 = some (.compute 0 0) ∧
  decodeTableWord 32 0x00000002 = none

/-! ## The datapath -/

/-- R101: the input XOR is taken over all bits of the element that the register has, and v = 0 changes nothing. -/
def Obligations.InputXorIsUnmasked : Prop :=
  (∀ w, AdmittedWidth w → ∀ (c : BitVec w) (v : Word),
    (∀ i, i < w → (xin c v).getLsbD i = (c.getLsbD i ^^ v.getLsbD i)) ∧ xin c 0 = c) ∧
  xin (0x000#32) 0x40 = 0x040#32

/-- R102: bit 1 set inverts bits 4 to 7 and nothing else; bit 1 clear changes nothing. -/
def Obligations.ConditionalXorBits : Prop :=
  (∀ w, AdmittedWidth w → ∀ c : BitVec w,
    (c.getLsbD 1 = false → fb c = c) ∧
    (c.getLsbD 1 = true → ∀ i, i < w →
      (fb c).getLsbD i = if 4 ≤ i ∧ i ≤ 7 then !c.getLsbD i else c.getLsbD i)) ∧
  fb (0x002#32) = 0x0F2#32 ∧ fb (0x040#32) = 0x040#32

/-- R104: one position right, the old bit 0 OR-ed into bit 8; below 0x200 a 9-bit rotation; 0 only from 0; top bit 0. -/
def Obligations.RotateRightByOneBits : Prop :=
  (∀ w, AdmittedWidth w → ∀ c : BitVec w,
    (∀ i, i < w → (ror1 c).getLsbD i = (c.getLsbD (i + 1) || (decide (i = 8) && c.getLsbD 0))) ∧
    (c.toNat < 0x200 →
      (ror1 c).getLsbD 8 = c.getLsbD 0 ∧ ∀ k, 1 ≤ k → k ≤ 8 → (ror1 c).getLsbD (k - 1) = c.getLsbD k) ∧
    (ror1 c = 0 ↔ c = 0) ∧
    (ror1 c).getLsbD (w - 1) = false) ∧
  ror1 (0x040#32) = 0x020#32 ∧ ror1 (0x001#32) = 0x100#32 ∧ ror1 (0x201#32) = 0x100#32

/-- The post-inversion XOR inverts bits 0, 1, 2, 3, 5, 7 and 8 and leaves 4, 6 and every bit above 8 (R105, C1). -/
def Obligations.PostInversionBits : Prop :=
  (∀ w, AdmittedWidth w → ∀ (c : BitVec w) (i : Nat), i < w →
    (fin c).getLsbD i = if i ∈ [0, 1, 2, 3, 5, 7, 8] then !c.getLsbD i else c.getLsbD i) ∧
  fin (0x020#32) = 0x18F#32

/-- R113: clean values stay clean through every operation, along every run over clean elements, and in RESULT. -/
def Obligations.CleanElementsKeepNineBits : Prop :=
  (∀ w, AdmittedWidth w → ∀ (c : BitVec w) (v : Word), c.toNat < 0x200 → v.toNat < 0x200 →
    (xin c v).toNat < 0x200 ∧ (fb c).toNat < 0x200 ∧ (ror1 c).toNat < 0x200 ∧ (stepElem c v).toNat < 0x200 ∧
    (fin c).toNat < 0x200 ∧ ror1 c = (c >>> 1) ||| ((c &&& 1) <<< 8)) ∧
  (∀ w, AdmittedWidth w → ∀ vs : List Word, (∀ v ∈ vs, v.toNat < 0x200) →
    (∀ k, (feed (0 : BitVec w) (vs.take k)).toNat < 0x200) ∧ (fin (feed (0 : BitVec w) vs)).toNat < 0x200) ∧
  (∀ s t : State, s.phase = .run → s.crc.toWord.toNat < 0x200 →
    (s.idx.toNat < s.lenL.toNat → s.bufRead.toNat < 0x200) → sequencerStep s = .next t →
    t.crc.toWord.toNat < 0x200 ∧ (t.done = true → t.resultWord.extractLsb' 9 23 = 0))

/-- R114: the involutions and the bijections. -/
def Obligations.InvolutionsAndBijections : Prop :=
  (∀ w, AdmittedWidth w →
    (∀ c : BitVec w, fb (fb c) = c ∧ fin (fin c) = c) ∧
    Set.BijOn (fun c : BitVec w => ror1 c) {c | c.toNat < 0x200} {c | c.toNat < 0x200} ∧
    (∀ v : Word, v.toNat < 0x200 →
      Set.BijOn (fun c : BitVec w => stepElem c v) {c | c.toNat < 0x200} {c | c.toNat < 0x200})) ∧
  ror1 (0x201#32) = 0x100#32 ∧ ror1 (0x200#32) = 0x100#32

/-- R115: below 2^16 the two storage widths give the same CRC9, and the upper half of 32 bits stays 0. -/
def Obligations.StorageWidthsAgreeBelow16Bits : Prop :=
  (∀ (buf : List Word) (n : Nat), (∀ v ∈ buf.take n, v.toNat < 2 ^ 16) →
    (crc9 16 buf n).map (·.setWidth 32) = crc9 32 buf n ∧
    ∀ k, k ≤ n → (feed (0 : BitVec 32) (buf.take k)).toNat < 2 ^ 16) ∧
  crc9 32 [0x10000] 1 = some 0x81AF ∧ crc9 16 [0x10000] 1 = some 0x1AF

/-- An all-zero input of any length, and length 0 of any buffer, give 0x1AF; a zero element still changes a register
that is not zero (R110, R111, C2). -/
def Obligations.ZeroInputGivesMask : Prop :=
  (∀ w, AdmittedWidth w →
    (∀ n, crc9 w (List.replicate n 0) n = some 0x1AF) ∧ (∀ buf, crc9 w buf 0 = some 0x1AF)) ∧
  stepElem (0x002#32) 0x000 = 0x079#32

/-- The reference scenario: the register over elements 0x40 has period 34, so that 800 of them give 0x020
(95_test_vectors.md section 1.3). -/
def Obligations.ReferenceScenarioHasPeriod34 : Prop :=
  ∀ w, AdmittedWidth w →
    (∀ n, feed (0 : BitVec w) (List.replicate (n + 34) 0x40) = feed (0 : BitVec w) (List.replicate n 0x40)) ∧
    crc9 w (List.replicate 800 0x40) 800 = some 0x020

/-! ## The COMPUTE command -/

/-- COMPUTE completes: with the block ready and LEN ≤ SIZE, exec answers the state of a run about to read element 0
(R132; the rest of the run is `ComputeRunsToCrc9`). -/
def Obligations.ComputeStartsRun : Prop :=
  ∀ (s : State) (size len : Word), s.phase = .idle → len.toNat ≤ size.toNat →
    ∃ t, exec (.compute size len) s = .next t ∧
      t.done = false ∧ t.err = .none ∧ t.crc = s.crc.load 0 ∧ t.crc.toWord = 0 ∧ t.idx = 0 ∧ t.lenL = len ∧
      t.phase = .run

/-- COMPUTE with LEN > SIZE, compared as unsigned, ends at once with code 1, and records nothing else: only ERR and DONE
change (R161, R163), and the host's presentation ends, which is the model's reading of acceptance
(notes/assumptions/11.md). -/
def Obligations.ComputeOutOfBounds : Prop :=
  ∀ (s : State) (size len : Word), s.phase = .idle → size.toNat < len.toNat →
    exec (.compute size len) s = .next { s with err := .outOfBounds, done := false, cmdValid := false } ∧
    ErrCode.outOfBounds.bits = 1

/-- Every command whose CTRL is not 0x00000001, whatever SIZE and LEN are, ends at once with code 3, and records nothing
else (R163, R164); that the accept ends the host's presentation is the model's reading (notes/assumptions/11.md). -/
def Obligations.IllegalCommandEndsAtOnce : Prop :=
  ∀ s : State, s.phase = .idle → s.cmdValid = true → s.cmd.ctrl ≠ 0x00000001#32 →
    sequencerStep s = .next { s with err := .illegalCommand, done := false, cmdValid := false } ∧
    ErrCode.illegalCommand.bits = 3

/-- R132: the accept step, field by field. With nothing presented no accept step is taken. -/
def Obligations.AcceptStepRule : Prop :=
  ∀ s : State, s.phase = .idle →
    (s.cmdValid = false → sequencerStep s = .next s) ∧
    (s.cmdValid = true → ∃ t, sequencerStep s = .next t ∧ t.done = false ∧ t.reads = s.reads ∧
      ((s.cmd.ctrl ≠ 0x00000001#32 ∧ t.err = .illegalCommand ∧ t.crc = s.crc ∧ t.idx = s.idx ∧ t.lenL = s.lenL ∧
          t.phase = s.phase) ∨
        (s.cmd.ctrl = 0x00000001#32 ∧ s.cmd.size.toNat < s.cmd.len.toNat ∧ t.err = .outOfBounds ∧ t.crc = s.crc ∧
          t.idx = s.idx ∧ t.lenL = s.lenL ∧ t.phase = s.phase) ∨
        (s.cmd.ctrl = 0x00000001#32 ∧ s.cmd.len.toNat ≤ s.cmd.size.toNat ∧ t.err = .none ∧ t.crc.toWord = 0 ∧
          t.idx = 0 ∧ t.lenL = s.cmd.len ∧ t.phase = .run)))

/-- When an accept shows an error, the state is the state before the failed command, except for ERR and DONE (R167), and
for the host's presentation, which acceptance ends: the model's reading, an exception that R167 does not name
(notes/assumptions/11.md). -/
def Obligations.ErrorsArePrecise : Prop :=
  ∀ s t : State, s.phase = .idle → s.cmdValid = true → sequencerStep s = .next t → t.err ≠ .none →
    t = { s with err := t.err, done := false, cmdValid := false }

/-- R162: INVALID_ARGUMENT is never produced. -/
def Obligations.InvalidArgumentNeverProduced : Prop :=
  State.reset.err ≠ .invalidArgument ∧
  ∀ s t : State, s.err ≠ .invalidArgument → step s = .next t → t.err ≠ .invalidArgument

/-- A command presented during a run is not consumed by any step of the block and does not affect the run; once the block
is idle again and it is still presented, the accept step takes it (R139). That exec of any instruction then leaves the state
as it is, is the model's reading of the hold (notes/assumptions/15.md). -/
def Obligations.CommandIsHeldDuringRun : Prop :=
  ∀ s : State, s.phase = .run →
    (∀ i, exec i s = .next s) ∧
    (∀ (b : Bool) (c : CommandWords),
      sequencerStep { s with cmdValid := b, cmd := c } =
        mapNext (fun t => { t with cmdValid := b, cmd := c }) (sequencerStep s)) ∧
    (∀ t, sequencerStep s = .next t → t.cmdValid = s.cmdValid ∧ t.cmd = s.cmd) ∧
    (∀ t, sequencerStep s = .next t → t.phase = .idle → t.cmdValid = true → sequencerStep t = acceptStep t)

/-- The frame of COMPUTE: exec changes only the block's registers, the presentation and the race marks; an error leaves
the registers but ERR and DONE, too (R132, R163). -/
def Obligations.ComputeFrame : Prop :=
  ∀ (s t : State) (size len : Word), exec (.compute size len) s = .next t →
    (∀ a, t.mem.read a = s.mem.read a) ∧ t.obsLog = s.obsLog ∧ t.reads = s.reads ∧ t.cmd = s.cmd ∧
    t.rst = s.rst ∧ t.extent = s.extent ∧ t.outstanding = s.outstanding ∧ t.program = s.program ∧
    t.hostVars = s.hostVars ∧ t.turns = s.turns ∧ t.obsEn = s.obsEn ∧ t.draws = s.draws ∧
    t.crc.width = s.crc.width ∧
    (size.toNat < len.toNat → t.crc = s.crc ∧ t.idx = s.idx ∧ t.lenL = s.lenL ∧ t.phase = s.phase ∧
      t.raced = s.raced)

/-- When the presented words decode to a well-formed instruction and the block is ready, the step is exec of it; a listed
block turn first leaves the list. -/
def Obligations.StepRunsDecodedCommand : Prop :=
  ∀ (s : State) (i : Instr), s.rst = false → s.phase = .idle → s.cmdValid = true → decode s.cmd = .instr i →
    i.wellFormed = true →
    (s.turns = [] → step s = exec i s) ∧
    (∀ ts, s.turns = .block :: ts → step s = exec i { s with turns := ts })

/-- Who moves: reset before anything else, then the listed turn, then the sequencer if it has a step to take, else the
host (R190, R200). The model's choices: the order with no turn listed (notes/assumptions/9.md); and that an asserted rst
makes a listed turn wait, that the same step releases the port, and that it keeps what is outside the block
(notes/assumptions/10.md). -/
def Obligations.WhoMovesNext : Prop :=
  ∀ s : State,
    (s.rst = true → step s = .next s.resetBlock) ∧
    (s.rst = false → ∀ u us, s.turns = u :: us → step s = takeTurn u { s with turns := us }) ∧
    (s.rst = false → s.turns = [] → (s.phase = .run ∨ s.cmdValid = true) → step s = sequencerStep s) ∧
    (s.rst = false → s.turns = [] → s.phase = .idle → s.cmdValid = false → step s = hostStep s)

/-! ## The run -/

/-- The element step (R134), with its frame: every other field is as before, but for the model's own counter of free
values, which goes up by one (the model's choice, notes/assumptions/18.md). The host's buffer holds the element (R144). -/
def Obligations.ElementStepRule : Prop :=
  (∀ s : State, s.phase = .run → s.idx.toNat < s.lenL.toNat → s.idx.toNat < s.extent →
    ∃ t, sequencerStep s = .next t ∧
      t.crc = s.crc.absorb s.bufRead ∧ t.idx.toNat = s.idx.toNat + 1 ∧ t.reads = s.reads ++ [s.idx] ∧
      t.obsLog = (if s.obsEn then s.obsLog ++ [⟨.elem, s.idx, s.bufRead, t.crc.toWord⟩] else s.obsLog) ∧
      t = { s with crc := t.crc, idx := t.idx, reads := t.reads, obsLog := t.obsLog, draws := s.draws + 1 }) ∧
  (CrcReg.w32 0x020).absorb 0x40 = .w32 0x030

/-- The final step (R135), with its frame: every other field is as before, but for the model's own race marks, which the
end of the run drops (the model's choice, notes/assumptions/5.md); and CRC keeps the final value until the next successful
accept writes 0 (or reset comes). -/
def Obligations.FinalStepRule : Prop :=
  (∀ s : State, s.phase = .run → s.idx = s.lenL →
    ∃ t, sequencerStep s = .next t ∧
      t.crc = s.crc.finish ∧ t.done = true ∧ t.phase = .idle ∧
      t.obsLog = (if s.obsEn then s.obsLog ++ [⟨.final, s.lenL, 0, t.crc.toWord⟩] else s.obsLog) ∧
      t.resultWord = t.crc.toWord ∧
      t = { s with crc := t.crc, done := true, phase := .idle, obsLog := t.obsLog, raced := [] }) ∧
  (∀ s t : State, s.phase = .idle → s.rst = false → step s = .next t → t.crc ≠ s.crc →
    s.cmdValid = true ∧ t.phase = .run ∧ t.err = .none ∧ t.crc = s.crc.load 0) ∧
  (CrcReg.w32 0x020).finish = .w32 0x18F

/-- From any point of a run that nothing disturbs and no host write races, `LEN_L - IDX` element steps and one final step
end it, with the elements still to come fed to the register in order (R133, R135). Which writes race is R60's; that one
between presentation and acceptance does not is the model's choice (notes/assumptions/28.md). -/
def Obligations.RunEndsFromAnyPoint : Prop :=
  ∀ s : State, s.Undisturbed → s.phase = .run → s.idx.toNat ≤ s.lenL.toNat → s.lenL.toNat ≤ s.extent →
    s.raced = [] →
    ∃ t, stepN (s.lenL.toNat - s.idx.toNat + 1) s = .next t ∧
      t.phase = .idle ∧ t.done = true ∧ t.err = s.err ∧
      t.crc = (s.crc.feed (s.elemsFrom s.idx.toNat (s.lenL.toNat - s.idx.toNat))).finish ∧
      t.mem = s.mem

/-- The headline: a COMPUTE that the host offers honestly ends after `LEN + 2` steps with DONE = 1, ERR = 0, STATUS 2 and
RESULT = zext_32(CRC9(buffer, LEN)) (R131, R109). That the buffer's elements are read as they stand, also one written after
the presentation, is the model's choice between R59 and R197 (notes/assumptions/28.md). -/
def Obligations.ComputeRunsToCrc9 : Prop :=
  ∀ (s : State) (size len : Word), s.Offers size len → s.Honest size len →
    ∃ t, stepN (len.toNat + 2) s = .next t ∧
      t.phase = .idle ∧ t.done = true ∧ t.err = .none ∧ t.statusWord = 0x00000002 ∧
      s.crc9Word (s.elemsFrom 0 len.toNat) len.toNat = some t.resultWord

/-- R136: a successful COMPUTE takes exactly `LEN + 2` steps (at every step in between the run goes on), a failed one
exactly one. -/
def Obligations.ComputeStepCount : Prop :=
  ∀ (s : State) (size len : Word), s.Offers size len →
    (len.toNat ≤ size.toNat → len.toNat ≤ s.extent →
      (∀ k, 1 ≤ k → k ≤ len.toNat + 1 → ∃ u, stepN k s = .next u ∧ u.phase = .run ∧ u.done = false) ∧
      ∃ t, stepN (len.toNat + 2) s = .next t ∧ t.phase = .idle ∧ t.done = true) ∧
    (size.toNat < len.toNat →
      ∃ t, stepN 1 s = .next t ∧ t.phase = .idle ∧ t.done = false ∧ t.err = .outOfBounds)

/-- R53: a run reads exactly the elements 0 to LEN - 1, each once, in increasing order; a failed command reads none. -/
def Obligations.RunReadsEachElementOnceInOrder : Prop :=
  (∀ (s : State) (size len : Word), s.Offers size len → len.toNat ≤ size.toNat → len.toNat ≤ s.extent →
    ∃ t, stepN (len.toNat + 2) s = .next t ∧ t.phase = .idle ∧
      t.reads = s.reads ++ (List.range len.toNat).map (BitVec.ofNat 32)) ∧
  (∀ s t : State, s.phase = .idle → sequencerStep s = .next t → t.reads = s.reads)

/-- With OBS_EN, a run emits one ELEM record per element in index order, with the value read and the
register after it, and then one FINAL record whose CRC is RESULT; without OBS_EN it emits nothing (R176, R177). The values
read are those of the buffer if every write to them is complete (R59; also one written after the presentation, which is the
model's choice, notes/assumptions/28.md). -/
def Obligations.RunEmitsRecordsInOrder : Prop :=
  ∀ (s : State) (size len : Word), s.Offers size len → len.toNat ≤ size.toNat → len.toNat ≤ s.extent →
    ∃ (t : State) (vs : List Word), stepN (len.toNat + 2) s = .next t ∧ vs.length = len.toNat ∧
      t.done = true ∧ t.crc = ((s.crc.load 0).feed vs).finish ∧
      (s.obsEn = true → t.obsLog = s.obsLog ++ s.elemRecords vs ++ [⟨.final, len, 0, t.resultWord⟩]) ∧
      (s.obsEn = false → t.obsLog = s.obsLog) ∧
      (s.Honest size len → vs = s.elemsFrom 0 len.toNat)

/-- R137: with LEN = 0 the accept step is followed directly by the final step, nothing is read, and RESULT is 0x1AF. -/
def Obligations.LengthZeroSkipsToFinal : Prop :=
  ∀ (s : State) (size : Word), s.Offers size 0 →
    ∃ u t, step s = .next u ∧ u.idx = 0 ∧ u.lenL = 0 ∧ step u = .next t ∧
      t.phase = .idle ∧ t.done = true ∧ t.reads = s.reads ∧ t.resultWord = 0x1AF

/-- An honest accept starts a run that follows the buffer as it stands (R59: a write complete before acceptance is seen, also
one made after the presentation, where R197 says otherwise: the model's choice, notes/assumptions/28.md). -/
def Obligations.AcceptedRunFollowsBuffer : Prop :=
  ∀ (s t : State) (size len : Word), s.phase = .idle → s.Honest size len → exec (.compute size len) s = .next t →
    t.Follows (s.elemsFrom 0 len.toNat)

/-- Whatever the order of the agents: any step of any agent but reset, as long as no host write races the run, keeps the
run on its elements or ends it with FIN of the register over all of them (R59, R200). -/
def Obligations.RunFollowsBufferUnderAnyOrder : Prop :=
  ∀ (s t : State) (vs : List Word), s.Follows vs → s.rst = false → step s = .next t → t.raced = [] →
    t.Follows vs ∨
      (t.phase = .idle ∧ t.done = true ∧ t.err = s.err ∧ t.crc = ((s.crc.load 0).feed vs).finish)

/-- Whatever the order of the agents and whatever the races: a successful accept starts a run that has read and recorded
nothing; every step of any agent but reset leaves what the run has read and recorded, or reads exactly the next element and
records it, or ends the run when all of its elements are read, with DONE = 1 and the FINAL record last. So a run reads the
elements 0 to LEN - 1 once each and in order, and its records are in that order (R53, R133, R176, R177, R200). -/
def Obligations.AnyOrderKeepsReadsAndRecords : Prop :=
  (∀ (s t : State) (size len : Word), s.phase = .idle → exec (.compute size len) s = .next t → t.phase = .run →
    t.Ran s.reads s.obsLog [] ∧ t.lenL = len) ∧
  (∀ (s t : State) (reads : List Word) (log : List ObsRecord) (vs : List Word),
    s.Ran reads log vs → s.rst = false → step s = .next t →
    t.lenL = s.lenL ∧ t.obsEn = s.obsEn ∧ t.crc.width = s.crc.width ∧
    (t.Ran reads log vs ∨ t.Ran reads log (vs ++ [s.bufRead]) ∨
      (vs.length = s.lenL.toNat ∧ t.phase = .idle ∧ t.done = true ∧
        t.reads = reads ++ (List.range s.lenL.toNat).map (BitVec.ofNat 32) ∧
        t.crc = ((s.crc.load 0).feed vs).finish ∧
        t.obsLog = if s.obsEn then log ++ s.elemRecords vs ++ [⟨.final, s.lenL, 0, t.resultWord⟩] else log)))

/-- The result depends on the elements read and on LEN alone: not on the rest of the buffer, on SIZE, on the register an
earlier run left, or on anything else of the state (R117). When the elements were written, before or after the
presentation, does not matter either: the model's choice (notes/assumptions/28.md). -/
def Obligations.ResultDependsOnElementsAlone : Prop :=
  ∀ (s s' : State) (size size' len : Word), s.Offers size len → s'.Offers size' len →
    s.Honest size len → s'.Honest size' len → s.crc.width = s'.crc.width →
    (∀ i, i < len.toNat → s.elemAt i = s'.elemAt i) →
    ∃ t t', stepN (len.toNat + 2) s = .next t ∧ stepN (len.toNat + 2) s' = .next t' ∧
      t.done = true ∧ t'.done = true ∧ t.crc = t'.crc ∧ t.resultWord = t'.resultWord

/-! ## Who writes what -/

/-- No turn but the sequencer's changes a register of the block, reads an element or emits a record; and only the
completion of a write changes the buffer: the turn landWrite, or a BUFW line of the host (R24 to R29, R33, R53, R143,
R175). -/
def Obligations.OnlySequencerWritesRegisters : Prop :=
  ∀ (u : Turn) (s t : State), u ≠ .block → takeTurn u s = .next t →
    t.blockRegs = s.blockRegs ∧ t.reads = s.reads ∧ t.obsLog = s.obsLog ∧
    (t.mem ≠ s.mem →
      u = .landWrite ∨ (u = .host ∧ s.cmdValid = false ∧ ∃ i v rest, s.program = .bufw i v :: rest))

/-- DONE changes only so: the final step sets it, an accept or reset clears it (R28). -/
def Obligations.WhatChangesDone : Prop :=
  ∀ s t : State, step s = .next t → t.done ≠ s.done →
    (t.done = true ∧ s.rst = false ∧ s.phase = .run ∧ s.idx = s.lenL) ∨
    (t.done = false ∧ (s.rst = true ∨ (s.phase = .idle ∧ s.cmdValid = true)))

/-- ERR changes only at an accept or reset, so an error stays until then (R29, R169). -/
def Obligations.ErrorStaysUntilAcceptOrReset : Prop :=
  ∀ s t : State, step s = .next t → t.err ≠ s.err →
    (s.rst = true ∧ t.err = .none) ∨ (s.rst = false ∧ s.phase = .idle ∧ s.cmdValid = true)

/-- IDX changes only so: the successful accept of a presented command writes 0, an element step adds exactly 1 without
wrapping, reset leaves it free (R25). -/
def Obligations.WhatChangesIdx : Prop :=
  ∀ s t : State, step s = .next t → t.idx ≠ s.idx →
    s.rst = true ∨
    (s.rst = false ∧ s.phase = .idle ∧ s.cmdValid = true ∧ t.phase = .run ∧ t.err = .none ∧ t.idx = 0) ∨
    (s.rst = false ∧ s.phase = .run ∧ t.idx.toNat = s.idx.toNat + 1 ∧ t.idx.toNat ≤ s.lenL.toNat)

/-- The block never writes the caller's buffer, and no step of its own touches the host (R51, R141). -/
def Obligations.BlockNeverWritesBuffer : Prop :=
  ∀ s t : State, sequencerStep s = .next t →
    t.mem = s.mem ∧ t.extent = s.extent ∧ t.outstanding = s.outstanding ∧ t.program = s.program ∧
    t.hostVars = s.hostVars ∧ t.rst = s.rst ∧ t.turns = s.turns

/-- The ports show what the step of the block does: it emits the record on the observer port, if there is one, and reads
the element that buf_rd and buf_idx name, if it reads one; an accept or an error emits and reads nothing (R70, R175). While
rst is asserted both ports show nothing, as the step that resets reads and emits nothing (R190). That the ports do so, and
that they show the sequencer's next step also while another agent moves first, is the model's choice
(notes/assumptions/27.md). -/
def Obligations.PortsShowReadsAndRecords : Prop :=
  ∀ s t : State,
    (s.rst = false → sequencerStep s = .next t →
      t.obsLog = s.obsLog ++ s.obsPort.toList ∧
      t.reads = s.reads ++ (if s.bufRd then [s.bufIdx] else [])) ∧
    (s.rst = true → step s = .next t →
      t.obsLog = s.obsLog ∧ t.reads = s.reads ∧ s.obsPort = none ∧ s.bufRd = false) ∧
    (s.phase = .idle → s.obsPort = none ∧ s.bufRd = false) ∧
    (s.obsEn = false → s.obsPort = none) ∧
    (s.obsEn = true → s.rst = false → s.phase = .run → s.idx.toNat ≤ s.lenL.toNat → ∃ r, s.obsPort = some r)

/-- No step changes a parameter, STORE_W or OBS_EN (R8, R21), or how many elements the buffer holds; that the latter is one
number for the whole of the model is the model's choice (notes/assumptions/7.md). -/
def Obligations.ParametersNeverChange : Prop :=
  ∀ s t : State, step s = .next t →
    t.crc.width = s.crc.width ∧ t.obsEn = s.obsEn ∧ t.extent = s.extent

/-- The observer port never affects the block: a step of the machine without the port is the step of the machine with it,
less the records (R178). -/
def Obligations.ObserverNeverAffectsStep : Prop :=
  ∀ s : State, step s.withoutObserver = mapNext State.withoutObserver (step s)

/-! ## STATUS, RESULT and the host -/

/-- R30: the layout of STATUS; the host reads it at any time, by a line of its program or by a turn of its own (a command
presented or not, a run in progress or not), and nothing changes but its variable and its place in the program. -/
def Obligations.StatusWordLayout : Prop :=
  ∀ s : State,
    s.statusWord.getLsbD 0 = s.busy ∧ s.statusWord.getLsbD 1 = s.done ∧
    s.statusWord.extractLsb' 2 2 = s.err.bits ∧ s.statusWord.extractLsb' 4 28 = 0 ∧
    ∀ name : String,
      (∃ t, takeTurn (.readStatus name) s = .next t ∧ t.hostVar name = some s.statusWord ∧
        t.blockRegs = s.blockRegs ∧ t.statusWord = s.statusWord ∧ t = { s with hostVars := t.hostVars }) ∧
      ∀ rest : List HostLine,
        ∃ t, hostLine (.rdstat name) rest s = .next t ∧ t.hostVar name = some s.statusWord ∧
          t.blockRegs = s.blockRegs ∧ t.statusWord = s.statusWord ∧
          t = { s with hostVars := t.hostVars, program := rest }

/-- RESULT is zext_32(CRC) while DONE = 1, and a free value otherwise (R31; the free value is the model's form of the
draw, notes/assumptions/4.md, and the counter of free values its own, notes/assumptions/18.md); the host reads it at any
time, by a line or by a turn of its own, without a side effect on the block. -/
def Obligations.ResultWordIsCrcWhenDone : Prop :=
  ∀ s : State,
    (s.done = true → s.resultWord.toNat = s.crc.bits.toNat) ∧
    (s.done = false → s.resultWord = Config.freeResult s.draws) ∧
    ∀ name : String,
      (∃ t, takeTurn (.readResult name) s = .next t ∧ t.hostVar name = some s.resultWord ∧
        t.blockRegs = s.blockRegs ∧ (s.done = true → t.resultWord = s.resultWord) ∧
        t = { s with hostVars := t.hostVars, draws := s.draws + 1 }) ∧
      ∀ rest : List HostLine,
        ∃ t, hostLine (.rdres name) rest s = .next t ∧ t.hostVar name = some s.resultWord ∧
          t.blockRegs = s.blockRegs ∧ (s.done = true → t.resultWord = s.resultWord) ∧
          t = { s with hostVars := t.hostVars, program := rest, draws := s.draws + 1 }

/-- BUSY falls, except by reset, only in the step in which DONE = 1 and the final RESULT appear (R198). -/
def Obligations.StatusAndResultAppearTogether : Prop :=
  ∀ s t : State, s.rst = false → s.busy = true → step s = .next t → t.busy = false →
    t.done = true ∧ t.resultWord = t.crc.toWord ∧ t.crc = s.crc.finish

/-- A BUFW line to an element the buffer has answers a next state (and only such a line: notes/assumptions/7.md). In it
element i holds v, no write is under way, an element that had no write under way stays, and nothing else changes but the
host's place in its program and the race marks (R59; that a BUFW completes in its step, after the writes issued before it, is
the model's choice, notes/assumptions/20.md). -/
def Obligations.BufferWriteIsSeen : Prop :=
  ∀ (s : State) (i v : Word) (rest : List HostLine),
    (i.toNat < s.extent ↔ ∃ t, hostLine (.bufw i v) rest s = .next t) ∧
    ∀ t, hostLine (.bufw i v) rest s = .next t →
      t.elemAt i.toNat = v ∧ t.outstanding = [] ∧
      (∀ j, j ≠ i.toNat → (∀ p ∈ s.outstanding, p.1.toNat ≠ j) → t.elemAt j = s.elemAt j) ∧
      t.blockRegs = s.blockRegs ∧
      t = { s with program := rest, mem := t.mem, outstanding := [], raced := t.raced }

/-- A write that the host issues to an element the buffer has is under way and leaves every element (an element the buffer
does not have is refused: notes/assumptions/7.md); when the oldest write under way completes, its element holds its value,
every other element stays, and nothing else changes; with none under way there is nothing to complete (R59, R60; that the
writes complete in the order of issue is the model's choice, notes/assumptions/20.md). -/
def Obligations.IssuedWriteLandsLater : Prop :=
  ∀ (s : State) (i v : Word),
    (i.toNat < s.extent ↔ ∃ t, takeTurn (.issueWrite i v) s = .next t) ∧
    (∀ t, takeTurn (.issueWrite i v) s = .next t →
      (∀ j, t.elemAt j = s.elemAt j) ∧
      t = { s with outstanding := s.outstanding ++ [(i, v)], raced := t.raced }) ∧
    (∀ ws, s.outstanding = (i, v) :: ws →
      ∃ t, takeTurn .landWrite s = .next t ∧ t.elemAt i.toNat = v ∧
        (∀ j, j ≠ i.toNat → t.elemAt j = s.elemAt j) ∧
        t = { s with mem := t.mem, outstanding := ws }) ∧
    (s.outstanding = [] → takeTurn .landWrite s = .next s)

/-- A host write during a run to an element the run has still to read, and a write not complete at acceptance to an
element the run will read, make that read a free value; other writes change no read mark and no element but their own
(R60; the free value is the model's form of the draw, notes/assumptions/5.md; that a write complete before acceptance races
nothing, though it comes after the presentation, is the model's choice, notes/assumptions/28.md). -/
def Obligations.RacedReadIsFree : Prop :=
  (∀ s : State, s.idx ∈ s.raced → s.bufRead = Config.racedElem s.draws) ∧
  (∀ s : State, s.idx ∉ s.raced → s.bufRead = s.elemAt s.idx.toNat) ∧
  (∀ (s t : State) (i v : Word), hostWrite i v s = .next t ∨ issueWrite i v s = .next t →
    (s.phase = .run → s.idx.toNat ≤ i.toNat → i.toNat < s.lenL.toNat → i ∈ t.raced) ∧
    (s.phase = .idle ∨ i.toNat < s.idx.toNat ∨ s.lenL.toNat ≤ i.toNat → t.raced = s.raced)) ∧
  (∀ (s t : State) (size len : Word), s.phase = .idle → len.toNat ≤ size.toNat →
    exec (.compute size len) s = .next t →
    ∀ i, i ∈ t.raced ↔ i.toNat < len.toNat ∧ ∃ v, (i, v) ∈ s.outstanding)

/-- The host holds a command until it is accepted, and the words stay; a command it withdraws before that has no effect
(R71, R195). That the host goes to no further line of its program meanwhile is the model's choice
(notes/assumptions/12.md), and so is what is left of the program after a withdrawal (notes/assumptions/26.md). -/
def Obligations.HostHoldsOrWithdrawsCommand : Prop :=
  (∀ (s : State) (c : CommandWords) (rest : List HostLine),
    hostLine (.cmd c) rest s = .next { s with program := rest, cmdValid := true, cmd := c }) ∧
  (∀ s : State, s.cmdValid = true → takeTurn .host s = .next s) ∧
  (∀ s : State, takeTurn .withdraw s = .next { s with cmdValid := false })

/-- WAIT is done only when BUSY = 0, and changes nothing but the host's place in its program (R83). -/
def Obligations.WaitEndsWhenIdle : Prop :=
  ∀ (s : State) (rest : List HostLine), s.program = .wait :: rest → s.cmdValid = false →
    (s.busy = true → hostStep s = .next s) ∧ (s.busy = false → hostStep s = .next { s with program := rest })

/-- R84: the expansions of the pseudo-instructions. -/
def Obligations.PseudoInstructionExpansions : Prop :=
  (∀ size len, pseudoCompute size len = [.cmd ⟨0x00000001, size, len⟩]) ∧
  (∀ n v, (pseudoBufFill n v).length = n ∧
    ∀ i, i < n → (pseudoBufFill n v)[i]? = some (.bufw (BitVec.ofNat 32 i) v)) ∧
  (∀ size len name, pseudoCrc size len name = [.cmd ⟨0x00000001, size, len⟩, .wait, .rdres name])

/-! ## Reset, the invariant and what can stop the machine -/

/-- R190: reset from any state, also in the middle of a run: the reset state of R35, no element read, no record, and the
presented command is not accepted in that step. -/
def Obligations.ResetFromAnyState : Prop :=
  ∀ s : State, s.rst = true →
    ∃ t, step s = .next t ∧ t.phase = .idle ∧ t.done = false ∧ t.err = .none ∧ t.statusWord = 0x00000000 ∧
      t.reads = s.reads ∧ t.obsLog = s.obsLog ∧ t.cmdValid = s.cmdValid ∧ t.cmd = s.cmd

/-- R192: after reset the block is in IDLE with STATUS = 0, waiting for a command. -/
def Obligations.ResetWaitsForCommand : Prop :=
  State.reset.phase = .idle ∧ State.reset.statusWord = 0x00000000 ∧ State.reset.cmdReady = true ∧
  sequencerStep State.reset = .next State.reset

/-- In IDLE with nothing presented the sequencer takes no step (R138). With no turn listed and no host line either, the
whole machine's step changes nothing: the model's choice (notes/assumptions/9.md, 13.md). -/
def Obligations.IdleBlockIsQuiescent : Prop :=
  ∀ s : State, s.phase = .idle → s.cmdValid = false →
    takeTurn .block s = .next s ∧ (s.rst = false → s.turns = [] → s.program = [] → step s = .next s)

/-- The invariant holds at reset. -/
def Obligations.ResetHasInvariant : Prop := State.reset.Inv

/-- Every step, of any agent and in any order, keeps the invariant: the buffer in canonical form and inside its extent,
ERR never INVALID_ARGUMENT, DONE only at rest and without error, IDX never past LEN_L in a run, and race marks only on
elements of the run (R28, R29, R60, R133, R162). -/
def Obligations.StepKeepsInvariant : Prop :=
  ∀ s t : State, s.Inv → step s = .next t → t.Inv

/-- From a state of the invariant no step faults, and the only stops are the two that the host causes by naming an element
its buffer does not have: a run reads past the real end (R144, I7), or the host write whose turn it is, issued or a BUFW
line, names an element at or past it (the refusals are the model's choice, notes/assumptions/7.md). -/
def Obligations.OnlyTheHostCanStopTheMachine : Prop :=
  ∀ s : State, s.Inv →
    (∀ r, step s ≠ .fault r) ∧
    (∀ r, step s = .refused r → s.rst = false ∧
      ((r = .bufferReadPastEnd ∧ s.phase = .run ∧ s.extent ≤ s.idx.toNat ∧ s.idx.toNat < s.lenL.toNat) ∨
        (r = .hostWritePastEnd ∧ ∃ i v : Word, s.extent ≤ i.toNat ∧
          ((∃ ts, s.turns = .issueWrite i v :: ts) ∨
            ((s.turns.head?.getD s.defaultTurn = .host) ∧ s.cmdValid = false ∧
              ∃ rest, s.program = .bufw i v :: rest)))))
end

