-- ==== Sys2Proof/Laws/Datapath.lean ====
section
/-! SUPPORT. The datapath bit by bit, and the register over its storage (40_datapath.md). -/

namespace Sys2Proof.Machine

variable {w : Nat}

theorem getLsbD_xin (c : BitVec w) (v : Word) (i : Nat) (hw : w ≤ 32) :
    (xin c v).getLsbD i = (decide (i < w) && (c.getLsbD i ^^ v.getLsbD i)) := by
  by_cases hi : i < w
  · have h32 : i < 32 := by omega
    simp [xin, hi, h32]
  · simp [xin, BitVec.getLsbD_setWidth, hi]

theorem getLsbD_kFb (i : Nat) (hw : 8 ≤ w) : (kFb w).getLsbD i = decide (4 ≤ i ∧ i ≤ 7) := by
  rw [kFb, BitVec.getLsbD_ofNat]
  by_cases hi : i < 8
  · have : i < w := by omega
    simp only [this, decide_true, Bool.true_and]
    interval_cases i <;> decide
  · have h : Nat.testBit 240 i = false := Nat.testBit_lt_two_pow (lt_of_lt_of_le (by norm_num) (Nat.pow_le_pow_right (by norm_num) (not_lt.mp hi)))
    rw [h, Bool.and_false, eq_comm, decide_eq_false_iff_not]
    omega

theorem getLsbD_kTop (i : Nat) (hw : 9 ≤ w) : (kTop w).getLsbD i = decide (i = 8) := by
  rw [kTop, BitVec.getLsbD_ofNat]
  by_cases hi : i < 9
  · have : i < w := by omega
    simp only [this, decide_true, Bool.true_and]
    interval_cases i <;> decide
  · have h : Nat.testBit 256 i = false := Nat.testBit_lt_two_pow (lt_of_lt_of_le (by norm_num) (Nat.pow_le_pow_right (by norm_num) (not_lt.mp hi)))
    rw [h, Bool.and_false, eq_comm, decide_eq_false_iff_not]
    omega

theorem getLsbD_kFin (i : Nat) (hw : 9 ≤ w) :
    (kFin w).getLsbD i = decide (i ≤ 8 ∧ i ≠ 4 ∧ i ≠ 6) := by
  rw [kFin, BitVec.getLsbD_ofNat]
  by_cases hi : i < 9
  · have : i < w := by omega
    simp only [this, decide_true, Bool.true_and]
    interval_cases i <;> decide
  · have h : Nat.testBit 431 i = false := Nat.testBit_lt_two_pow (lt_of_lt_of_le (by norm_num) (Nat.pow_le_pow_right (by norm_num) (not_lt.mp hi)))
    rw [h, Bool.and_false, eq_comm, decide_eq_false_iff_not]
    omega

theorem getLsbD_fb (c : BitVec w) (i : Nat) (hw : 8 ≤ w) :
    (fb c).getLsbD i = (c.getLsbD i ^^ (c.getLsbD 1 && decide (4 ≤ i ∧ i ≤ 7))) := by
  unfold fb
  split
  · rename_i h
    rw [BitVec.getLsbD_xor, getLsbD_kFb i hw, h, Bool.true_and]
  · rename_i h
    simp [Bool.eq_false_iff.mpr h]

theorem getLsbD_ror1 (c : BitVec w) (i : Nat) (hw : 9 ≤ w) :
    (ror1 c).getLsbD i = (c.getLsbD (i + 1) || (c.getLsbD 0 && decide (i = 8))) := by
  unfold ror1
  split
  · rename_i h
    rw [BitVec.getLsbD_or, getLsbD_kTop i hw, BitVec.getLsbD_ushiftRight, h, Bool.true_and, Nat.add_comm]
  · rename_i h
    rw [BitVec.getLsbD_ushiftRight, Bool.eq_false_iff.mpr h, Bool.false_and, Bool.or_false, Nat.add_comm]

theorem getLsbD_fin (c : BitVec w) (i : Nat) (hw : 9 ≤ w) :
    (fin c).getLsbD i = (c.getLsbD i ^^ decide (i ≤ 8 ∧ i ≠ 4 ∧ i ≠ 6)) := by
  rw [fin, BitVec.getLsbD_xor, getLsbD_kFin i hw]

/-- Below 2^n is having no bit from `n` up. -/
theorem toNat_lt_two_pow_iff (c : BitVec w) (n : Nat) : c.toNat < 2 ^ n ↔ ∀ i, n ≤ i → c.getLsbD i = false := by
  constructor
  · intro h i hi
    exact Nat.testBit_lt_two_pow (lt_of_lt_of_le h (Nat.pow_le_pow_right (by norm_num) hi))
  · intro h
    exact Nat.lt_pow_two_of_testBit _ fun i hi => h i hi

@[simp] theorem feed_nil (c : BitVec w) : feed c [] = c := rfl

@[simp] theorem feed_cons (c : BitVec w) (v : Word) (vs : List Word) :
    feed c (v :: vs) = feed (stepElem c v) vs := rfl

theorem feed_append (c : BitVec w) (us vs : List Word) : feed c (us ++ vs) = feed (feed c us) vs :=
  List.foldl_append ..

@[simp] theorem CrcReg.feed_nil (r : CrcReg) : r.feed [] = r := rfl

@[simp] theorem CrcReg.feed_cons (r : CrcReg) (v : Word) (vs : List Word) : r.feed (v :: vs) = (r.absorb v).feed vs :=
  rfl

theorem CrcReg.feed_append (r : CrcReg) (us vs : List Word) : r.feed (us ++ vs) = (r.feed us).feed vs :=
  List.foldl_append ..

/-- The register of 32 bits runs the datapath at 32 bits. -/
@[simp] theorem CrcReg.feed_w32 (c : BitVec 32) (vs : List Word) : (CrcReg.w32 c).feed vs = .w32 (Machine.feed c vs) := by
  induction vs generalizing c with
  | nil => rfl
  | cons v vs ih => exact ih (stepElem c v)

/-- The register of 16 bits runs the datapath at 16 bits. -/
@[simp] theorem CrcReg.feed_w16 (c : BitVec 16) (vs : List Word) : (CrcReg.w16 c).feed vs = .w16 (Machine.feed c vs) := by
  induction vs generalizing c with
  | nil => rfl
  | cons v vs ih => exact ih (stepElem c v)

@[simp] theorem CrcReg.load_absorb (r : CrcReg) (u v : Word) : (r.absorb u).load v = r.load v := by cases r <;> rfl

@[simp] theorem CrcReg.load_finish (r : CrcReg) (v : Word) : r.finish.load v = r.load v := by cases r <;> rfl

@[simp] theorem CrcReg.load_load (r : CrcReg) (u v : Word) : (r.load u).load v = r.load v := by cases r <;> rfl

@[simp] theorem CrcReg.width_load (r : CrcReg) (v : Word) : (r.load v).width = r.width := by cases r <;> rfl

@[simp] theorem CrcReg.width_absorb (r : CrcReg) (v : Word) : (r.absorb v).width = r.width := by cases r <;> rfl

@[simp] theorem CrcReg.width_finish (r : CrcReg) : r.finish.width = r.width := by cases r <;> rfl

end Sys2Proof.Machine
end

