-- ==== Sys2Proof/Laws/Memory.lean ====
section
/-! SUPPORT. The laws of the caller's buffer: reading back a write, leaving the rest alone, and the canonical form. -/

namespace Sys2Proof.Machine

@[simp] theorem Memory.read_nil (a : Nat) : Memory.read [] a = none := rfl

theorem Memory.read_write_same (m : Memory) (a : Nat) (v : Word) : (m.write a v).read a = some v := by
  induction m with
  | nil => simp [Memory.write, Memory.read]
  | cons p m ih =>
    obtain ⟨b, u⟩ := p
    simp only [Memory.write]
    split
    · simp [Memory.read]
    · split
      · simp [Memory.read]
      · simp [Memory.read, *]

theorem Memory.read_write_other (m : Memory) {a b : Nat} (v : Word) (h : b ≠ a) :
    (m.write a v).read b = m.read b := by
  induction m with
  | nil => simp [Memory.write, Memory.read, h]
  | cons p m ih =>
    obtain ⟨c, u⟩ := p
    simp only [Memory.write]
    split
    · simp [Memory.read, h]
    · split
      · rename_i hac
        subst hac
        simp [Memory.read, h]
      · simp [Memory.read, ih]

/-- An element of a written buffer is the new one or an old one. -/
theorem Memory.mem_write {m : Memory} {a : Nat} {v : Word} {p : Nat × Word} (h : p ∈ m.write a v) :
    p = (a, v) ∨ p ∈ m := by
  induction m with
  | nil => simpa [Memory.write] using h
  | cons q m ih =>
    obtain ⟨b, u⟩ := q
    simp only [Memory.write] at h
    split at h
    · simpa using h
    · split at h
      · rcases List.mem_cons.mp h with rfl | h
        · exact .inl rfl
        · exact .inr (List.mem_cons_of_mem _ h)
      · rcases List.mem_cons.mp h with rfl | h
        · exact .inr (List.mem_cons_self ..)
        · exact (ih h).imp id (List.mem_cons_of_mem _)

/-- A write keeps the canonical form. -/
theorem Memory.write_wf {m : Memory} (hm : m.wf) (a : Nat) (v : Word) : (m.write a v).wf := by
  induction m with
  | nil => simp [Memory.write, Memory.wf]
  | cons q m ih =>
    obtain ⟨b, u⟩ := q
    obtain ⟨hb, hm'⟩ := List.pairwise_cons.mp hm
    simp only [Memory.write]
    split
    · rename_i hab
      refine List.pairwise_cons.mpr ⟨fun p hp => ?_, hm⟩
      rcases List.mem_cons.mp hp with rfl | hp
      · exact hab
      · exact lt_trans hab (hb p hp)
    · split
      · rename_i hab
        subst hab
        exact List.pairwise_cons.mpr ⟨hb, hm'⟩
      · rename_i hab hne
        refine List.pairwise_cons.mpr ⟨fun p hp => ?_, ih hm'⟩
        rcases Memory.mem_write hp with rfl | hp
        · exact lt_of_le_of_ne (not_lt.mp hab) (Ne.symm hne)
        · exact hb p hp

theorem Memory.read_eq_none {m : Memory} {a : Nat} (h : ∀ p ∈ m, a < p.1) : m.read a = none := by
  induction m with
  | nil => rfl
  | cons q m ih =>
    obtain ⟨b, u⟩ := q
    have hb : a < b := h (b, u) (List.mem_cons_self ..)
    simp [Memory.read, hb.ne, ih fun p hp => h p (List.mem_cons_of_mem _ hp)]

/-- In canonical form, buffers that read the same are the same data. -/
theorem Memory.ext_of_wf {m n : Memory} (hm : m.wf) (hn : n.wf) (h : ∀ a, m.read a = n.read a) : m = n := by
  induction m generalizing n with
  | nil =>
    cases n with
    | nil => rfl
    | cons q n => simpa [Memory.read] using h q.1
  | cons p m ih =>
    obtain ⟨a, u⟩ := p
    obtain ⟨ha, hm'⟩ := List.pairwise_cons.mp hm
    cases n with
    | nil => simpa [Memory.read] using h a
    | cons q n =>
      obtain ⟨b, v⟩ := q
      obtain ⟨hb, hn'⟩ := List.pairwise_cons.mp hn
      have hab : a = b := by
        rcases lt_trichotomy a b with hlt | heq | hgt
        · have := h a
          rw [Memory.read_eq_none (m := (b, v) :: n) (by
            intro p hp
            rcases List.mem_cons.mp hp with rfl | hp
            · exact hlt
            · exact lt_trans hlt (hb p hp))] at this
          simp [Memory.read] at this
        · exact heq
        · have := h b
          rw [Memory.read_eq_none (m := (a, u) :: m) (by
            intro p hp
            rcases List.mem_cons.mp hp with rfl | hp
            · exact hgt
            · exact lt_trans hgt (ha p hp))] at this
          simp [Memory.read] at this
      subst hab
      have huv : u = v := by simpa [Memory.read] using h a
      subst huv
      refine congrArg _ (ih hm' hn' fun c => ?_)
      by_cases hc : c = a
      · subst hc
        rw [Memory.read_eq_none ha, Memory.read_eq_none hb]
      · simpa [Memory.read, hc] using h c

/-- The issued writes keep the canonical form when they complete. -/
theorem Memory.writes_wf {m : Memory} (hm : m.wf) (ws : List (Word × Word)) :
    Memory.wf (ws.foldl (fun m p => Memory.write m p.1.toNat p.2) m) := by
  induction ws generalizing m with
  | nil => exact hm
  | cons w ws ih => exact ih (Memory.write_wf hm ..)

/-- What the buffer holds after the issued writes complete: an old element or one of theirs. -/
theorem Memory.mem_writes {m : Memory} {ws : List (Word × Word)} {p : Nat × Word}
    (h : p ∈ ws.foldl (fun m p => Memory.write m p.1.toNat p.2) m) :
    p ∈ m ∨ ∃ w ∈ ws, p = (w.1.toNat, w.2) := by
  induction ws generalizing m with
  | nil => exact .inl h
  | cons w ws ih =>
    rcases ih h with h | ⟨w', hw', hp⟩
    · rcases Memory.mem_write h with rfl | h
      · exact .inr ⟨w, List.mem_cons_self .., rfl⟩
      · exact .inl h
    · exact .inr ⟨w', List.mem_cons_of_mem _ hw', hp⟩

/-- Writes to other elements leave element `a` alone. -/
theorem Memory.read_writes_other (m : Memory) {ws : List (Word × Word)} {a : Nat} (h : ∀ w ∈ ws, w.1.toNat ≠ a) :
    Memory.read (ws.foldl (fun m p => Memory.write m p.1.toNat p.2) m) a = m.read a := by
  induction ws generalizing m with
  | nil => rfl
  | cons w ws ih =>
    rw [List.foldl_cons, ih _ fun w' hw' => h w' (List.mem_cons_of_mem _ hw')]
    exact Memory.read_write_other _ _ (h w (List.mem_cons_self ..)).symm

/-- What element `i` holds is the buffer's alone. -/
theorem State.elemAt_congr {s t : State} {i : Nat} (h : t.mem.read i = s.mem.read i) : t.elemAt i = s.elemAt i := by
  simp [State.elemAt, h]

end Sys2Proof.Machine
end

