-- ==== Sys2Proof/Laws/PerInstr.lean ====
section
/-! SUPPORT. What is said of every instruction as syntax: the words of a well-formed instruction pass every check of the
form (30_encoding.md R73 to R75). -/

namespace Sys2Proof.Laws.EncodedForm

/-- The encoding of `i` names an operation. -/
def Statement (i : Instr) : Prop := i.wellFormed = true → (encode i).wellFormed = true

theorem compute (size len : Word) : Statement (.compute size len) := by
  intro _
  simp [encode, CommandWords.wellFormed, CommandWords.opNamed, CommandWords.rsvdClear, CommandWords.opField,
    CommandWords.rsvdField, ctrlCompute]

end Sys2Proof.Laws.EncodedForm
end

