-- ==== Sys2Proof/Laws/State.lean ====
section
/-! SUPPORT. What each named update of the state does to each field, by definition, so that no proof unfolds a record
update. -/

namespace Sys2Proof.Machine

/-! ## `State.takeCommand` -/

@[simp] theorem State.takeCommand_crc (s : State) : (s.takeCommand).crc = s.crc := rfl
@[simp] theorem State.takeCommand_phase (s : State) : (s.takeCommand).phase = s.phase := rfl
@[simp] theorem State.takeCommand_idx (s : State) : (s.takeCommand).idx = s.idx := rfl
@[simp] theorem State.takeCommand_lenL (s : State) : (s.takeCommand).lenL = s.lenL := rfl
@[simp] theorem State.takeCommand_done (s : State) : (s.takeCommand).done = s.done := rfl
@[simp] theorem State.takeCommand_err (s : State) : (s.takeCommand).err = s.err := rfl
@[simp] theorem State.takeCommand_obsEn (s : State) : (s.takeCommand).obsEn = s.obsEn := rfl
@[simp] theorem State.takeCommand_rst (s : State) : (s.takeCommand).rst = s.rst := rfl
@[simp] theorem State.takeCommand_cmdValid (s : State) : (s.takeCommand).cmdValid = false := rfl
@[simp] theorem State.takeCommand_cmd (s : State) : (s.takeCommand).cmd = s.cmd := rfl
@[simp] theorem State.takeCommand_mem (s : State) : (s.takeCommand).mem = s.mem := rfl
@[simp] theorem State.takeCommand_extent (s : State) : (s.takeCommand).extent = s.extent := rfl
@[simp] theorem State.takeCommand_outstanding (s : State) : (s.takeCommand).outstanding = s.outstanding := rfl
@[simp] theorem State.takeCommand_raced (s : State) : (s.takeCommand).raced = s.raced := rfl
@[simp] theorem State.takeCommand_program (s : State) : (s.takeCommand).program = s.program := rfl
@[simp] theorem State.takeCommand_hostVars (s : State) : (s.takeCommand).hostVars = s.hostVars := rfl
@[simp] theorem State.takeCommand_turns (s : State) : (s.takeCommand).turns = s.turns := rfl
@[simp] theorem State.takeCommand_obsLog (s : State) : (s.takeCommand).obsLog = s.obsLog := rfl
@[simp] theorem State.takeCommand_reads (s : State) : (s.takeCommand).reads = s.reads := rfl
@[simp] theorem State.takeCommand_draws (s : State) : (s.takeCommand).draws = s.draws := rfl

/-! ## `State.raiseError` -/

@[simp] theorem State.raiseError_crc (s : State) (code : ErrCode) : (s.raiseError code).crc = s.crc := rfl
@[simp] theorem State.raiseError_phase (s : State) (code : ErrCode) : (s.raiseError code).phase = s.phase := rfl
@[simp] theorem State.raiseError_idx (s : State) (code : ErrCode) : (s.raiseError code).idx = s.idx := rfl
@[simp] theorem State.raiseError_lenL (s : State) (code : ErrCode) : (s.raiseError code).lenL = s.lenL := rfl
@[simp] theorem State.raiseError_done (s : State) (code : ErrCode) : (s.raiseError code).done = false := rfl
@[simp] theorem State.raiseError_err (s : State) (code : ErrCode) : (s.raiseError code).err = code := rfl
@[simp] theorem State.raiseError_obsEn (s : State) (code : ErrCode) : (s.raiseError code).obsEn = s.obsEn := rfl
@[simp] theorem State.raiseError_rst (s : State) (code : ErrCode) : (s.raiseError code).rst = s.rst := rfl
@[simp] theorem State.raiseError_cmdValid (s : State) (code : ErrCode) :
    (s.raiseError code).cmdValid = s.cmdValid := rfl
@[simp] theorem State.raiseError_cmd (s : State) (code : ErrCode) : (s.raiseError code).cmd = s.cmd := rfl
@[simp] theorem State.raiseError_mem (s : State) (code : ErrCode) : (s.raiseError code).mem = s.mem := rfl
@[simp] theorem State.raiseError_extent (s : State) (code : ErrCode) : (s.raiseError code).extent = s.extent := rfl
@[simp] theorem State.raiseError_outstanding (s : State) (code : ErrCode) :
    (s.raiseError code).outstanding = s.outstanding := rfl
@[simp] theorem State.raiseError_raced (s : State) (code : ErrCode) : (s.raiseError code).raced = s.raced := rfl
@[simp] theorem State.raiseError_program (s : State) (code : ErrCode) : (s.raiseError code).program = s.program := rfl
@[simp] theorem State.raiseError_hostVars (s : State) (code : ErrCode) :
    (s.raiseError code).hostVars = s.hostVars := rfl
@[simp] theorem State.raiseError_turns (s : State) (code : ErrCode) : (s.raiseError code).turns = s.turns := rfl
@[simp] theorem State.raiseError_obsLog (s : State) (code : ErrCode) : (s.raiseError code).obsLog = s.obsLog := rfl
@[simp] theorem State.raiseError_reads (s : State) (code : ErrCode) : (s.raiseError code).reads = s.reads := rfl
@[simp] theorem State.raiseError_draws (s : State) (code : ErrCode) : (s.raiseError code).draws = s.draws := rfl

/-! ## `State.startRun` -/

@[simp] theorem State.startRun_crc (s : State) (len : Word) : (s.startRun len).crc = s.crc.load 0 := rfl
@[simp] theorem State.startRun_phase (s : State) (len : Word) : (s.startRun len).phase = .run := rfl
@[simp] theorem State.startRun_idx (s : State) (len : Word) : (s.startRun len).idx = 0 := rfl
@[simp] theorem State.startRun_lenL (s : State) (len : Word) : (s.startRun len).lenL = len := rfl
@[simp] theorem State.startRun_done (s : State) (len : Word) : (s.startRun len).done = false := rfl
@[simp] theorem State.startRun_err (s : State) (len : Word) : (s.startRun len).err = .none := rfl
@[simp] theorem State.startRun_obsEn (s : State) (len : Word) : (s.startRun len).obsEn = s.obsEn := rfl
@[simp] theorem State.startRun_rst (s : State) (len : Word) : (s.startRun len).rst = s.rst := rfl
@[simp] theorem State.startRun_cmdValid (s : State) (len : Word) : (s.startRun len).cmdValid = s.cmdValid := rfl
@[simp] theorem State.startRun_cmd (s : State) (len : Word) : (s.startRun len).cmd = s.cmd := rfl
@[simp] theorem State.startRun_mem (s : State) (len : Word) : (s.startRun len).mem = s.mem := rfl
@[simp] theorem State.startRun_extent (s : State) (len : Word) : (s.startRun len).extent = s.extent := rfl
@[simp] theorem State.startRun_outstanding (s : State) (len : Word) :
    (s.startRun len).outstanding = s.outstanding := rfl
@[simp] theorem State.startRun_raced (s : State) (len : Word) : (s.startRun len).raced = s.racedAtAccept len := rfl
@[simp] theorem State.startRun_program (s : State) (len : Word) : (s.startRun len).program = s.program := rfl
@[simp] theorem State.startRun_hostVars (s : State) (len : Word) : (s.startRun len).hostVars = s.hostVars := rfl
@[simp] theorem State.startRun_turns (s : State) (len : Word) : (s.startRun len).turns = s.turns := rfl
@[simp] theorem State.startRun_obsLog (s : State) (len : Word) : (s.startRun len).obsLog = s.obsLog := rfl
@[simp] theorem State.startRun_reads (s : State) (len : Word) : (s.startRun len).reads = s.reads := rfl
@[simp] theorem State.startRun_draws (s : State) (len : Word) : (s.startRun len).draws = s.draws := rfl

/-! ## `State.emit` -/

@[simp] theorem State.emit_crc (s : State) (r : ObsRecord) : (s.emit r).crc = s.crc := rfl
@[simp] theorem State.emit_phase (s : State) (r : ObsRecord) : (s.emit r).phase = s.phase := rfl
@[simp] theorem State.emit_idx (s : State) (r : ObsRecord) : (s.emit r).idx = s.idx := rfl
@[simp] theorem State.emit_lenL (s : State) (r : ObsRecord) : (s.emit r).lenL = s.lenL := rfl
@[simp] theorem State.emit_done (s : State) (r : ObsRecord) : (s.emit r).done = s.done := rfl
@[simp] theorem State.emit_err (s : State) (r : ObsRecord) : (s.emit r).err = s.err := rfl
@[simp] theorem State.emit_obsEn (s : State) (r : ObsRecord) : (s.emit r).obsEn = s.obsEn := rfl
@[simp] theorem State.emit_rst (s : State) (r : ObsRecord) : (s.emit r).rst = s.rst := rfl
@[simp] theorem State.emit_cmdValid (s : State) (r : ObsRecord) : (s.emit r).cmdValid = s.cmdValid := rfl
@[simp] theorem State.emit_cmd (s : State) (r : ObsRecord) : (s.emit r).cmd = s.cmd := rfl
@[simp] theorem State.emit_mem (s : State) (r : ObsRecord) : (s.emit r).mem = s.mem := rfl
@[simp] theorem State.emit_extent (s : State) (r : ObsRecord) : (s.emit r).extent = s.extent := rfl
@[simp] theorem State.emit_outstanding (s : State) (r : ObsRecord) : (s.emit r).outstanding = s.outstanding := rfl
@[simp] theorem State.emit_raced (s : State) (r : ObsRecord) : (s.emit r).raced = s.raced := rfl
@[simp] theorem State.emit_program (s : State) (r : ObsRecord) : (s.emit r).program = s.program := rfl
@[simp] theorem State.emit_hostVars (s : State) (r : ObsRecord) : (s.emit r).hostVars = s.hostVars := rfl
@[simp] theorem State.emit_turns (s : State) (r : ObsRecord) : (s.emit r).turns = s.turns := rfl
@[simp] theorem State.emit_obsLog (s : State) (r : ObsRecord) :
    (s.emit r).obsLog = if s.obsEn then s.obsLog ++ [r] else s.obsLog := rfl
@[simp] theorem State.emit_reads (s : State) (r : ObsRecord) : (s.emit r).reads = s.reads := rfl
@[simp] theorem State.emit_draws (s : State) (r : ObsRecord) : (s.emit r).draws = s.draws := rfl

/-! ## `State.absorb` -/

@[simp] theorem State.absorb_crc (s : State) (v : Word) : (s.absorb v).crc = s.crc.absorb v := rfl
@[simp] theorem State.absorb_phase (s : State) (v : Word) : (s.absorb v).phase = s.phase := rfl
@[simp] theorem State.absorb_idx (s : State) (v : Word) : (s.absorb v).idx = s.idx + 1 := rfl
@[simp] theorem State.absorb_lenL (s : State) (v : Word) : (s.absorb v).lenL = s.lenL := rfl
@[simp] theorem State.absorb_done (s : State) (v : Word) : (s.absorb v).done = s.done := rfl
@[simp] theorem State.absorb_err (s : State) (v : Word) : (s.absorb v).err = s.err := rfl
@[simp] theorem State.absorb_obsEn (s : State) (v : Word) : (s.absorb v).obsEn = s.obsEn := rfl
@[simp] theorem State.absorb_rst (s : State) (v : Word) : (s.absorb v).rst = s.rst := rfl
@[simp] theorem State.absorb_cmdValid (s : State) (v : Word) : (s.absorb v).cmdValid = s.cmdValid := rfl
@[simp] theorem State.absorb_cmd (s : State) (v : Word) : (s.absorb v).cmd = s.cmd := rfl
@[simp] theorem State.absorb_mem (s : State) (v : Word) : (s.absorb v).mem = s.mem := rfl
@[simp] theorem State.absorb_extent (s : State) (v : Word) : (s.absorb v).extent = s.extent := rfl
@[simp] theorem State.absorb_outstanding (s : State) (v : Word) : (s.absorb v).outstanding = s.outstanding := rfl
@[simp] theorem State.absorb_raced (s : State) (v : Word) : (s.absorb v).raced = s.raced := rfl
@[simp] theorem State.absorb_program (s : State) (v : Word) : (s.absorb v).program = s.program := rfl
@[simp] theorem State.absorb_hostVars (s : State) (v : Word) : (s.absorb v).hostVars = s.hostVars := rfl
@[simp] theorem State.absorb_turns (s : State) (v : Word) : (s.absorb v).turns = s.turns := rfl
@[simp] theorem State.absorb_obsLog (s : State) (v : Word) :
    (s.absorb v).obsLog = if s.obsEn then s.obsLog ++ [s.elemRecord v] else s.obsLog := rfl
@[simp] theorem State.absorb_reads (s : State) (v : Word) : (s.absorb v).reads = s.reads ++ [s.idx] := rfl
@[simp] theorem State.absorb_draws (s : State) (v : Word) : (s.absorb v).draws = s.draws + 1 := rfl

/-! ## `State.finish` -/

@[simp] theorem State.finish_crc (s : State) : (s.finish).crc = s.crc.finish := rfl
@[simp] theorem State.finish_phase (s : State) : (s.finish).phase = .idle := rfl
@[simp] theorem State.finish_idx (s : State) : (s.finish).idx = s.idx := rfl
@[simp] theorem State.finish_lenL (s : State) : (s.finish).lenL = s.lenL := rfl
@[simp] theorem State.finish_done (s : State) : (s.finish).done = true := rfl
@[simp] theorem State.finish_err (s : State) : (s.finish).err = s.err := rfl
@[simp] theorem State.finish_obsEn (s : State) : (s.finish).obsEn = s.obsEn := rfl
@[simp] theorem State.finish_rst (s : State) : (s.finish).rst = s.rst := rfl
@[simp] theorem State.finish_cmdValid (s : State) : (s.finish).cmdValid = s.cmdValid := rfl
@[simp] theorem State.finish_cmd (s : State) : (s.finish).cmd = s.cmd := rfl
@[simp] theorem State.finish_mem (s : State) : (s.finish).mem = s.mem := rfl
@[simp] theorem State.finish_extent (s : State) : (s.finish).extent = s.extent := rfl
@[simp] theorem State.finish_outstanding (s : State) : (s.finish).outstanding = s.outstanding := rfl
@[simp] theorem State.finish_raced (s : State) : (s.finish).raced = [] := rfl
@[simp] theorem State.finish_program (s : State) : (s.finish).program = s.program := rfl
@[simp] theorem State.finish_hostVars (s : State) : (s.finish).hostVars = s.hostVars := rfl
@[simp] theorem State.finish_turns (s : State) : (s.finish).turns = s.turns := rfl
@[simp] theorem State.finish_obsLog (s : State) :
    (s.finish).obsLog = if s.obsEn then s.obsLog ++ [s.finalRecord] else s.obsLog := rfl
@[simp] theorem State.finish_reads (s : State) : (s.finish).reads = s.reads := rfl
@[simp] theorem State.finish_draws (s : State) : (s.finish).draws = s.draws := rfl

/-! ## `State.resetBlock` -/

@[simp] theorem State.resetBlock_crc (s : State) : (s.resetBlock).crc = s.crc.load (Config.freeCrc s.draws) := rfl
@[simp] theorem State.resetBlock_phase (s : State) : (s.resetBlock).phase = .idle := rfl
@[simp] theorem State.resetBlock_idx (s : State) : (s.resetBlock).idx = Config.freeIdx s.draws := rfl
@[simp] theorem State.resetBlock_lenL (s : State) : (s.resetBlock).lenL = Config.freeLen s.draws := rfl
@[simp] theorem State.resetBlock_done (s : State) : (s.resetBlock).done = false := rfl
@[simp] theorem State.resetBlock_err (s : State) : (s.resetBlock).err = .none := rfl
@[simp] theorem State.resetBlock_obsEn (s : State) : (s.resetBlock).obsEn = s.obsEn := rfl
@[simp] theorem State.resetBlock_rst (s : State) : (s.resetBlock).rst = false := rfl
@[simp] theorem State.resetBlock_cmdValid (s : State) : (s.resetBlock).cmdValid = s.cmdValid := rfl
@[simp] theorem State.resetBlock_cmd (s : State) : (s.resetBlock).cmd = s.cmd := rfl
@[simp] theorem State.resetBlock_mem (s : State) : (s.resetBlock).mem = s.mem := rfl
@[simp] theorem State.resetBlock_extent (s : State) : (s.resetBlock).extent = s.extent := rfl
@[simp] theorem State.resetBlock_outstanding (s : State) : (s.resetBlock).outstanding = s.outstanding := rfl
@[simp] theorem State.resetBlock_raced (s : State) : (s.resetBlock).raced = [] := rfl
@[simp] theorem State.resetBlock_program (s : State) : (s.resetBlock).program = s.program := rfl
@[simp] theorem State.resetBlock_hostVars (s : State) : (s.resetBlock).hostVars = s.hostVars := rfl
@[simp] theorem State.resetBlock_turns (s : State) : (s.resetBlock).turns = s.turns := rfl
@[simp] theorem State.resetBlock_obsLog (s : State) : (s.resetBlock).obsLog = s.obsLog := rfl
@[simp] theorem State.resetBlock_reads (s : State) : (s.resetBlock).reads = s.reads := rfl
@[simp] theorem State.resetBlock_draws (s : State) : (s.resetBlock).draws = s.draws + 1 := rfl

/-! ## `State.noteWrite` -/

@[simp] theorem State.noteWrite_crc (s : State) (i : Word) : (s.noteWrite i).crc = s.crc := rfl
@[simp] theorem State.noteWrite_phase (s : State) (i : Word) : (s.noteWrite i).phase = s.phase := rfl
@[simp] theorem State.noteWrite_idx (s : State) (i : Word) : (s.noteWrite i).idx = s.idx := rfl
@[simp] theorem State.noteWrite_lenL (s : State) (i : Word) : (s.noteWrite i).lenL = s.lenL := rfl
@[simp] theorem State.noteWrite_done (s : State) (i : Word) : (s.noteWrite i).done = s.done := rfl
@[simp] theorem State.noteWrite_err (s : State) (i : Word) : (s.noteWrite i).err = s.err := rfl
@[simp] theorem State.noteWrite_obsEn (s : State) (i : Word) : (s.noteWrite i).obsEn = s.obsEn := rfl
@[simp] theorem State.noteWrite_rst (s : State) (i : Word) : (s.noteWrite i).rst = s.rst := rfl
@[simp] theorem State.noteWrite_cmdValid (s : State) (i : Word) : (s.noteWrite i).cmdValid = s.cmdValid := rfl
@[simp] theorem State.noteWrite_cmd (s : State) (i : Word) : (s.noteWrite i).cmd = s.cmd := rfl
@[simp] theorem State.noteWrite_mem (s : State) (i : Word) : (s.noteWrite i).mem = s.mem := rfl
@[simp] theorem State.noteWrite_extent (s : State) (i : Word) : (s.noteWrite i).extent = s.extent := rfl
@[simp] theorem State.noteWrite_outstanding (s : State) (i : Word) :
    (s.noteWrite i).outstanding = s.outstanding := rfl
@[simp] theorem State.noteWrite_raced (s : State) (i : Word) :
    (s.noteWrite i).raced = if s.phase = .run ∧ s.idx.toNat ≤ i.toNat ∧ i.toNat < s.lenL.toNat then i :: s.raced else s.raced := rfl
@[simp] theorem State.noteWrite_program (s : State) (i : Word) : (s.noteWrite i).program = s.program := rfl
@[simp] theorem State.noteWrite_hostVars (s : State) (i : Word) : (s.noteWrite i).hostVars = s.hostVars := rfl
@[simp] theorem State.noteWrite_turns (s : State) (i : Word) : (s.noteWrite i).turns = s.turns := rfl
@[simp] theorem State.noteWrite_obsLog (s : State) (i : Word) : (s.noteWrite i).obsLog = s.obsLog := rfl
@[simp] theorem State.noteWrite_reads (s : State) (i : Word) : (s.noteWrite i).reads = s.reads := rfl
@[simp] theorem State.noteWrite_draws (s : State) (i : Word) : (s.noteWrite i).draws = s.draws := rfl

/-! ## `State.putElem` -/

@[simp] theorem State.putElem_crc (s : State) (i v : Word) : (s.putElem i v).crc = s.crc := rfl
@[simp] theorem State.putElem_phase (s : State) (i v : Word) : (s.putElem i v).phase = s.phase := rfl
@[simp] theorem State.putElem_idx (s : State) (i v : Word) : (s.putElem i v).idx = s.idx := rfl
@[simp] theorem State.putElem_lenL (s : State) (i v : Word) : (s.putElem i v).lenL = s.lenL := rfl
@[simp] theorem State.putElem_done (s : State) (i v : Word) : (s.putElem i v).done = s.done := rfl
@[simp] theorem State.putElem_err (s : State) (i v : Word) : (s.putElem i v).err = s.err := rfl
@[simp] theorem State.putElem_obsEn (s : State) (i v : Word) : (s.putElem i v).obsEn = s.obsEn := rfl
@[simp] theorem State.putElem_rst (s : State) (i v : Word) : (s.putElem i v).rst = s.rst := rfl
@[simp] theorem State.putElem_cmdValid (s : State) (i v : Word) : (s.putElem i v).cmdValid = s.cmdValid := rfl
@[simp] theorem State.putElem_cmd (s : State) (i v : Word) : (s.putElem i v).cmd = s.cmd := rfl
@[simp] theorem State.putElem_mem (s : State) (i v : Word) : (s.putElem i v).mem = s.mem.write i.toNat v := rfl
@[simp] theorem State.putElem_extent (s : State) (i v : Word) : (s.putElem i v).extent = s.extent := rfl
@[simp] theorem State.putElem_outstanding (s : State) (i v : Word) :
    (s.putElem i v).outstanding = s.outstanding := rfl
@[simp] theorem State.putElem_raced (s : State) (i v : Word) : (s.putElem i v).raced = s.raced := rfl
@[simp] theorem State.putElem_program (s : State) (i v : Word) : (s.putElem i v).program = s.program := rfl
@[simp] theorem State.putElem_hostVars (s : State) (i v : Word) : (s.putElem i v).hostVars = s.hostVars := rfl
@[simp] theorem State.putElem_turns (s : State) (i v : Word) : (s.putElem i v).turns = s.turns := rfl
@[simp] theorem State.putElem_obsLog (s : State) (i v : Word) : (s.putElem i v).obsLog = s.obsLog := rfl
@[simp] theorem State.putElem_reads (s : State) (i v : Word) : (s.putElem i v).reads = s.reads := rfl
@[simp] theorem State.putElem_draws (s : State) (i v : Word) : (s.putElem i v).draws = s.draws := rfl

/-! ## `State.landAll` -/

@[simp] theorem State.landAll_crc (s : State) : (s.landAll).crc = s.crc := rfl
@[simp] theorem State.landAll_phase (s : State) : (s.landAll).phase = s.phase := rfl
@[simp] theorem State.landAll_idx (s : State) : (s.landAll).idx = s.idx := rfl
@[simp] theorem State.landAll_lenL (s : State) : (s.landAll).lenL = s.lenL := rfl
@[simp] theorem State.landAll_done (s : State) : (s.landAll).done = s.done := rfl
@[simp] theorem State.landAll_err (s : State) : (s.landAll).err = s.err := rfl
@[simp] theorem State.landAll_obsEn (s : State) : (s.landAll).obsEn = s.obsEn := rfl
@[simp] theorem State.landAll_rst (s : State) : (s.landAll).rst = s.rst := rfl
@[simp] theorem State.landAll_cmdValid (s : State) : (s.landAll).cmdValid = s.cmdValid := rfl
@[simp] theorem State.landAll_cmd (s : State) : (s.landAll).cmd = s.cmd := rfl
@[simp] theorem State.landAll_mem (s : State) :
    (s.landAll).mem = s.outstanding.foldl (fun m p => Memory.write m p.1.toNat p.2) s.mem := rfl
@[simp] theorem State.landAll_extent (s : State) : (s.landAll).extent = s.extent := rfl
@[simp] theorem State.landAll_outstanding (s : State) : (s.landAll).outstanding = [] := rfl
@[simp] theorem State.landAll_raced (s : State) : (s.landAll).raced = s.raced := rfl
@[simp] theorem State.landAll_program (s : State) : (s.landAll).program = s.program := rfl
@[simp] theorem State.landAll_hostVars (s : State) : (s.landAll).hostVars = s.hostVars := rfl
@[simp] theorem State.landAll_turns (s : State) : (s.landAll).turns = s.turns := rfl
@[simp] theorem State.landAll_obsLog (s : State) : (s.landAll).obsLog = s.obsLog := rfl
@[simp] theorem State.landAll_reads (s : State) : (s.landAll).reads = s.reads := rfl
@[simp] theorem State.landAll_draws (s : State) : (s.landAll).draws = s.draws := rfl

/-! ## `State.setVar` -/

@[simp] theorem State.setVar_crc (s : State) (name : String) (v : Word) : (s.setVar name v).crc = s.crc := rfl
@[simp] theorem State.setVar_phase (s : State) (name : String) (v : Word) : (s.setVar name v).phase = s.phase := rfl
@[simp] theorem State.setVar_idx (s : State) (name : String) (v : Word) : (s.setVar name v).idx = s.idx := rfl
@[simp] theorem State.setVar_lenL (s : State) (name : String) (v : Word) : (s.setVar name v).lenL = s.lenL := rfl
@[simp] theorem State.setVar_done (s : State) (name : String) (v : Word) : (s.setVar name v).done = s.done := rfl
@[simp] theorem State.setVar_err (s : State) (name : String) (v : Word) : (s.setVar name v).err = s.err := rfl
@[simp] theorem State.setVar_obsEn (s : State) (name : String) (v : Word) : (s.setVar name v).obsEn = s.obsEn := rfl
@[simp] theorem State.setVar_rst (s : State) (name : String) (v : Word) : (s.setVar name v).rst = s.rst := rfl
@[simp] theorem State.setVar_cmdValid (s : State) (name : String) (v : Word) :
    (s.setVar name v).cmdValid = s.cmdValid := rfl
@[simp] theorem State.setVar_cmd (s : State) (name : String) (v : Word) : (s.setVar name v).cmd = s.cmd := rfl
@[simp] theorem State.setVar_mem (s : State) (name : String) (v : Word) : (s.setVar name v).mem = s.mem := rfl
@[simp] theorem State.setVar_extent (s : State) (name : String) (v : Word) :
    (s.setVar name v).extent = s.extent := rfl
@[simp] theorem State.setVar_outstanding (s : State) (name : String) (v : Word) :
    (s.setVar name v).outstanding = s.outstanding := rfl
@[simp] theorem State.setVar_raced (s : State) (name : String) (v : Word) : (s.setVar name v).raced = s.raced := rfl
@[simp] theorem State.setVar_program (s : State) (name : String) (v : Word) :
    (s.setVar name v).program = s.program := rfl
@[simp] theorem State.setVar_hostVars (s : State) (name : String) (v : Word) :
    (s.setVar name v).hostVars = (name, v) :: s.hostVars := rfl
@[simp] theorem State.setVar_turns (s : State) (name : String) (v : Word) : (s.setVar name v).turns = s.turns := rfl
@[simp] theorem State.setVar_obsLog (s : State) (name : String) (v : Word) :
    (s.setVar name v).obsLog = s.obsLog := rfl
@[simp] theorem State.setVar_reads (s : State) (name : String) (v : Word) : (s.setVar name v).reads = s.reads := rfl
@[simp] theorem State.setVar_draws (s : State) (name : String) (v : Word) : (s.setVar name v).draws = s.draws := rfl

/-! ## `State.present` -/

@[simp] theorem State.present_crc (s : State) (c : CommandWords) : (s.present c).crc = s.crc := rfl
@[simp] theorem State.present_phase (s : State) (c : CommandWords) : (s.present c).phase = s.phase := rfl
@[simp] theorem State.present_idx (s : State) (c : CommandWords) : (s.present c).idx = s.idx := rfl
@[simp] theorem State.present_lenL (s : State) (c : CommandWords) : (s.present c).lenL = s.lenL := rfl
@[simp] theorem State.present_done (s : State) (c : CommandWords) : (s.present c).done = s.done := rfl
@[simp] theorem State.present_err (s : State) (c : CommandWords) : (s.present c).err = s.err := rfl
@[simp] theorem State.present_obsEn (s : State) (c : CommandWords) : (s.present c).obsEn = s.obsEn := rfl
@[simp] theorem State.present_rst (s : State) (c : CommandWords) : (s.present c).rst = s.rst := rfl
@[simp] theorem State.present_cmdValid (s : State) (c : CommandWords) : (s.present c).cmdValid = true := rfl
@[simp] theorem State.present_cmd (s : State) (c : CommandWords) : (s.present c).cmd = c := rfl
@[simp] theorem State.present_mem (s : State) (c : CommandWords) : (s.present c).mem = s.mem := rfl
@[simp] theorem State.present_extent (s : State) (c : CommandWords) : (s.present c).extent = s.extent := rfl
@[simp] theorem State.present_outstanding (s : State) (c : CommandWords) :
    (s.present c).outstanding = s.outstanding := rfl
@[simp] theorem State.present_raced (s : State) (c : CommandWords) : (s.present c).raced = s.raced := rfl
@[simp] theorem State.present_program (s : State) (c : CommandWords) : (s.present c).program = s.program := rfl
@[simp] theorem State.present_hostVars (s : State) (c : CommandWords) : (s.present c).hostVars = s.hostVars := rfl
@[simp] theorem State.present_turns (s : State) (c : CommandWords) : (s.present c).turns = s.turns := rfl
@[simp] theorem State.present_obsLog (s : State) (c : CommandWords) : (s.present c).obsLog = s.obsLog := rfl
@[simp] theorem State.present_reads (s : State) (c : CommandWords) : (s.present c).reads = s.reads := rfl
@[simp] theorem State.present_draws (s : State) (c : CommandWords) : (s.present c).draws = s.draws := rfl

/-! ## `State.offer` -/

@[simp] theorem State.offer_crc (s : State) (c : CommandWords) : (s.offer c).crc = s.crc := rfl
@[simp] theorem State.offer_phase (s : State) (c : CommandWords) : (s.offer c).phase = .idle := rfl
@[simp] theorem State.offer_idx (s : State) (c : CommandWords) : (s.offer c).idx = s.idx := rfl
@[simp] theorem State.offer_lenL (s : State) (c : CommandWords) : (s.offer c).lenL = s.lenL := rfl
@[simp] theorem State.offer_done (s : State) (c : CommandWords) : (s.offer c).done = s.done := rfl
@[simp] theorem State.offer_err (s : State) (c : CommandWords) : (s.offer c).err = s.err := rfl
@[simp] theorem State.offer_obsEn (s : State) (c : CommandWords) : (s.offer c).obsEn = s.obsEn := rfl
@[simp] theorem State.offer_rst (s : State) (c : CommandWords) : (s.offer c).rst = false := rfl
@[simp] theorem State.offer_cmdValid (s : State) (c : CommandWords) : (s.offer c).cmdValid = true := rfl
@[simp] theorem State.offer_cmd (s : State) (c : CommandWords) : (s.offer c).cmd = c := rfl
@[simp] theorem State.offer_mem (s : State) (c : CommandWords) : (s.offer c).mem = s.mem := rfl
@[simp] theorem State.offer_extent (s : State) (c : CommandWords) : (s.offer c).extent = s.extent := rfl
@[simp] theorem State.offer_outstanding (s : State) (c : CommandWords) :
    (s.offer c).outstanding = s.outstanding := rfl
@[simp] theorem State.offer_raced (s : State) (c : CommandWords) : (s.offer c).raced = s.raced := rfl
@[simp] theorem State.offer_program (s : State) (c : CommandWords) : (s.offer c).program = s.program := rfl
@[simp] theorem State.offer_hostVars (s : State) (c : CommandWords) : (s.offer c).hostVars = s.hostVars := rfl
@[simp] theorem State.offer_turns (s : State) (c : CommandWords) : (s.offer c).turns = [] := rfl
@[simp] theorem State.offer_obsLog (s : State) (c : CommandWords) : (s.offer c).obsLog = s.obsLog := rfl
@[simp] theorem State.offer_reads (s : State) (c : CommandWords) : (s.offer c).reads = s.reads := rfl
@[simp] theorem State.offer_draws (s : State) (c : CommandWords) : (s.offer c).draws = s.draws := rfl

end Sys2Proof.Machine
end

