-- ==== Sys2Proof/Laws/Step.lean ====
section
/-! SUPPORT. Everything a step can do, said once: `step_next_cases`, `takeTurn_effect` and the lemmas they are made of. -/

namespace Sys2Proof.Machine

/-- What a turn can do to the state, one constructor per effect. -/
inductive TurnEffect (s : State) : State → Prop where
  /-- Nothing: the block is quiescent, holds a command, or the host waits. -/
  | quiet : TurnEffect s s
  | accepted (size len : Word) (idle : s.phase = .idle) (offered : s.cmdValid = true)
      (decoded : decode s.cmd = .instr (.compute size len)) (within : lenWithinSize size len = true) :
      TurnEffect s (s.takeCommand.startRun len)
  | outOfBounds (size len : Word) (idle : s.phase = .idle) (offered : s.cmdValid = true)
      (decoded : decode s.cmd = .instr (.compute size len)) (past : lenWithinSize size len = false) :
      TurnEffect s (s.takeCommand.raiseError .outOfBounds)
  | illegal (ctrl : Word) (idle : s.phase = .idle) (offered : s.cmdValid = true)
      (decoded : decode s.cmd = .illegal ctrl) : TurnEffect s (s.takeCommand.raiseError .illegalCommand)
  | element (running : s.phase = .run) (more : s.idx.toNat < s.lenL.toNat) (inside : s.idx.toNat < s.extent) :
      TurnEffect s (s.absorb s.bufRead)
  | finished (running : s.phase = .run) (atEnd : s.idx = s.lenL) : TurnEffect s s.finish
  | waited (rest : List HostLine) : TurnEffect s { s with program := rest }
  | presented (rest : List HostLine) (c : CommandWords) (free : s.cmdValid = false) :
      TurnEffect s ({ s with program := rest }.present c)
  | wrote (rest : List HostLine) (i v : Word) (inside : i.toNat < s.extent) :
      TurnEffect s (({ s with program := rest }.noteWrite i).landAll.putElem i v)
  | readStatus (rest : List HostLine) (name : String) :
      TurnEffect s ({ s with program := rest }.setVar name s.statusWord)
  | readResult (rest : List HostLine) (name : String) :
      TurnEffect s { { s with program := rest }.setVar name s.resultWord with draws := s.draws + 1 }
  | raisedRst (rest : List HostLine) : TurnEffect s { s with program := rest, rst := true }
  | withdrew : TurnEffect s { s with cmdValid := false }
  | issued (i v : Word) (inside : i.toNat < s.extent) :
      TurnEffect s { s.noteWrite i with outstanding := s.outstanding ++ [(i, v)] }
  | landed (i v : Word) (rest : List (Word × Word)) (oldest : s.outstanding = (i, v) :: rest) :
      TurnEffect s ({ s with outstanding := rest }.putElem i v)

@[simp] theorem Outcome.next_inj {s t : State} :
    (Host.Outcome.next s : Host.Outcome State Fault Refusal) = .next t ↔ s = t :=
  ⟨fun h => by cases h; rfl, fun h => h ▸ rfl⟩

theorem decode_eq_instr {c : CommandWords} {size len : Word} (h : decode c = .instr (.compute size len)) :
    c = encode (.compute size len) := by
  unfold decode at h
  split at h
  · rename_i hc
    obtain ⟨ctrl, sz, ln⟩ := c
    simp only [Command.instr.injEq, Instr.compute.injEq] at h
    obtain ⟨rfl, rfl⟩ := h
    simpa [encode] using hc
  · cases h

theorem acceptStep_effect {s t : State} (hp : s.phase = .idle) (hv : s.cmdValid = true)
    (h : acceptStep s = .next t) : TurnEffect s t := by
  unfold acceptStep at h
  split at h
  · rename_i i hi
    cases i with
    | compute size len =>
      simp only [exec, execCompute, State.cmdReady, hp, beq_self_eq_true, if_true] at h
      split at h
      · rename_i hw
        cases h
        exact .accepted size len hp hv hi hw
      · rename_i hw
        cases h
        exact .outOfBounds size len hp hv hi (by simpa using hw)
  · rename_i ctrl hi
    simp only [execIllegal, State.cmdReady, hp, beq_self_eq_true, if_true] at h
    cases h
    exact .illegal ctrl hp hv hi

theorem sequencerStep_effect {s t : State} (h : sequencerStep s = .next t) : TurnEffect s t := by
  unfold sequencerStep at h
  split at h
  · rename_i hp
    unfold runStep at h
    split at h
    · rename_i hlt
      unfold elementStep at h
      split at h
      · cases h
        exact .element hp hlt ‹_›
      · cases h
    · split at h
      · cases h
        exact .finished hp ‹_›
      · cases h
  · rename_i hp
    split at h
    · exact acceptStep_effect hp ‹_› h
    · cases h
      exact .quiet

theorem hostLine_effect {l : HostLine} {rest : List HostLine} {s t : State} (hv : s.cmdValid = false)
    (h : hostLine l rest s = .next t) : TurnEffect s t := by
  cases l with
  | cmd c =>
    cases h
    exact .presented rest c hv
  | bufw i v =>
    simp only [hostLine, hostWrite] at h
    split at h
    · cases h
      exact .wrote rest i v ‹_›
    · cases h
  | wait =>
    simp only [hostLine] at h
    split at h <;> cases h
    · exact .quiet
    · exact .waited rest
  | rdstat name =>
    cases h
    exact .readStatus rest name
  | rdres name =>
    cases h
    exact .readResult rest name
  | reset =>
    cases h
    exact .raisedRst rest

theorem hostStep_effect {s t : State} (h : hostStep s = .next t) : TurnEffect s t := by
  unfold hostStep at h
  split at h
  · cases h
    exact .quiet
  · split at h
    · cases h
      exact .quiet
    · exact hostLine_effect (by simpa using ‹¬s.cmdValid = true›) h

/-- What any turn can do. -/
theorem takeTurn_effect {u : Turn} {s t : State} (h : takeTurn u s = .next t) : TurnEffect s t := by
  cases u with
  | block => exact sequencerStep_effect h
  | host => exact hostStep_effect h
  | assertRst =>
    cases h
    exact .raisedRst s.program
  | withdraw =>
    cases h
    exact .withdrew
  | readStatus name =>
    cases h
    exact .readStatus s.program name
  | readResult name =>
    cases h
    exact .readResult s.program name
  | issueWrite i v =>
    simp only [takeTurn, issueWrite] at h
    split at h
    · cases h
      exact .issued i v ‹_›
    · cases h
  | landWrite =>
    simp only [takeTurn, landOldest] at h
    split at h
    · cases h
      exact .quiet
    · cases h
      exact .landed _ _ _ ‹_›

/-- Everything a step can do: reset, or a turn. -/
theorem step_next_cases {s t : State} (h : step s = .next t) :
    (s.rst = true ∧ t = s.resetBlock) ∨ (s.rst = false ∧ ∃ ts, TurnEffect { s with turns := ts } t) := by
  unfold step systemStep at h
  split at h
  · cases h
    exact .inl ⟨‹_›, rfl⟩
  · refine .inr ⟨by simpa using ‹¬s.rst = true›, ?_⟩
    cases hts : s.turns with
    | nil =>
      rw [hts] at h
      exact ⟨s.turns, takeTurn_effect h⟩
    | cons u us =>
      rw [hts] at h
      exact ⟨us, takeTurn_effect h⟩

/-- While nothing disturbs it, a block with a step to take takes it. -/
theorem step_of_undisturbed {s : State} (hs : s.Undisturbed) (he : s.blockEnabled = true) :
    step s = sequencerStep s := by
  obtain ⟨hr, ht⟩ := hs
  simp [step, systemStep, hr, ht, State.defaultTurn, he, takeTurn]

/-- A run has a step to take. -/
theorem State.blockEnabled_of_run {s : State} (h : s.phase = .run) : s.blockEnabled = true := by
  simp [State.blockEnabled, State.busy, h]

theorem sequencerStep_of_run {s : State} (h : s.phase = .run) : sequencerStep s = runStep s := by
  simp [sequencerStep, h]

/-! ## The steps as equations -/

/-- All that `COMPUTE` does to a block that is ready for it. -/
theorem execCompute_of_idle {s : State} (hp : s.phase = .idle) (size len : Word) :
    execCompute size len s =
      .next (if lenWithinSize size len then s.takeCommand.startRun len else s.takeCommand.raiseError .outOfBounds) := by
  simp only [execCompute, State.cmdReady, hp, beq_self_eq_true, if_true]
  split <;> rfl

/-- All that an illegal command does to a block that is ready for it. -/
theorem execIllegal_of_idle {s : State} (hp : s.phase = .idle) :
    execIllegal s = .next (s.takeCommand.raiseError .illegalCommand) := by
  simp [execIllegal, State.cmdReady, hp]

theorem lenWithinSize_iff (size len : Word) : lenWithinSize size len = true ↔ len.toNat ≤ size.toNat := by
  simp [lenWithinSize]

theorem runStep_element {s : State} (more : s.idx.toNat < s.lenL.toNat) (inside : s.idx.toNat < s.extent) :
    runStep s = .next (s.absorb s.bufRead) := by
  simp [runStep, elementStep, more, inside]

theorem runStep_final {s : State} (atEnd : s.idx = s.lenL) : runStep s = .next s.finish := by
  simp [runStep, finalStep, atEnd]

/-- The index of an element step does not wrap (10_state.md R25). -/
theorem toNat_add_one_of_lt {a b : Word} (h : a.toNat < b.toNat) : (a + 1).toNat = a.toNat + 1 := by
  have := b.isLt
  rw [BitVec.toNat_add, show BitVec.toNat (1 : Word) = 1 from rfl]
  omega

theorem stepN_succ_of_next {n : Nat} {s t : State} (h : step s = .next t) : stepN (n + 1) s = stepN n t := by
  simp [stepN, h]

@[simp] theorem State.length_elemsFrom (s : State) (i n : Nat) : (s.elemsFrom i n).length = n := by
  simp [State.elemsFrom]

/-- One element more. -/
theorem State.elemsFrom_succ (s : State) (i n : Nat) : s.elemsFrom i (n + 1) = s.elemsFrom i n ++ [s.elemAt (i + n)] := by
  simp [State.elemsFrom, List.range'_concat]

end Sys2Proof.Machine
end

