-- ==== Sys2Proof/Laws/Run.lean ====
section
/-! SUPPORT. The induction over a run that nothing disturbs, made once: what `k` element steps leave
(41_sequencer.md R133, R134). -/

namespace Sys2Proof.Machine

/-- `t` is where `s`, a block in a run, stands after the element steps that read the values `vs`. -/
structure State.Fed (s t : State) (vs : List Word) : Prop where
  undisturbed : t.Undisturbed
  running : t.phase = .run
  idx : t.idx.toNat = s.idx.toNat + vs.length
  lenL : t.lenL = s.lenL
  extent : t.extent = s.extent
  obsEn : t.obsEn = s.obsEn
  done : t.done = s.done
  err : t.err = s.err
  mem : t.mem = s.mem
  raced : t.raced = s.raced
  crc : t.crc = s.crc.feed vs
  reads : t.reads = s.reads ++ (List.range' s.idx.toNat vs.length).map (BitVec.ofNat 32)
  /-- Without a race the values read are those of the buffer. -/
  values : s.raced = [] → vs = s.elemsFrom s.idx.toNat vs.length
  records : t.obsLog =
    if s.obsEn then
      s.obsLog ++ (List.range vs.length).map fun j =>
        ⟨.elem, BitVec.ofNat 32 (s.idx.toNat + j), vs.getD j 0, (s.crc.feed (vs.take (j + 1))).toWord⟩
    else s.obsLog

theorem State.Fed.refl {s : State} (hu : s.Undisturbed) (hp : s.phase = .run) : s.Fed s [] where
  undisturbed := hu
  running := hp
  idx := rfl
  lenL := rfl
  extent := rfl
  obsEn := rfl
  done := rfl
  err := rfl
  mem := rfl
  raced := rfl
  crc := rfl
  reads := by simp
  values := fun _ => rfl
  records := by simp

/-- One element step more. -/
theorem State.Fed.absorb {s t : State} {vs : List Word} (h : s.Fed t vs) (more : t.idx.toNat < t.lenL.toNat) :
    s.Fed (t.absorb t.bufRead) (vs ++ [t.bufRead]) := by
  have hidx : t.idx = BitVec.ofNat 32 (s.idx.toNat + vs.length) := by rw [← h.idx]; simp
  have hcrc : t.crc.absorb t.bufRead = s.crc.feed (vs ++ [t.bufRead]) := by
    rw [CrcReg.feed_append, ← h.crc]
    rfl
  refine ⟨h.undisturbed, h.running, ?_, h.lenL, h.extent, h.obsEn, h.done, h.err, h.mem, h.raced, hcrc, ?_, ?_, ?_⟩
  · rw [State.absorb_idx, toNat_add_one_of_lt more, h.idx]
    simp [Nat.add_assoc]
  · rw [State.absorb_reads, h.reads, hidx]
    simp [List.range'_concat]
  · intro hr
    have hread : t.bufRead = s.elemAt (s.idx.toNat + vs.length) := by
      rw [State.bufRead, h.raced, hr, ← h.idx]
      exact State.elemAt_congr (by rw [h.mem])
    rw [List.length_append, List.length_singleton, State.elemsFrom_succ, ← h.values hr, hread]
  · rw [State.absorb_obsLog, h.records, h.obsEn, State.elemRecord, hcrc, hidx]
    split
    · rw [List.length_append, List.length_singleton, List.range_succ, List.map_append, ← List.append_assoc]
      congr 1
      · congr 1
        refine List.map_congr_left fun j hj => ?_
        have hj' : j < vs.length := by simpa using hj
        rw [List.take_append_of_le_length (by omega)]
        simp [List.getD, List.getElem?_append_left hj']
      · rw [List.map_singleton, List.take_of_length_le (by simp)]
        simp
    · rfl

/-- `k` element steps of a run that nothing disturbs. -/
theorem stepN_elements {s : State} (hu : s.Undisturbed) (hp : s.phase = .run) (inside : s.lenL.toNat ≤ s.extent) (k : Nat) :
    s.idx.toNat + k ≤ s.lenL.toNat →
      ∃ t vs, vs.length = k ∧ s.Fed t vs ∧ ∀ n, stepN (k + n) s = stepN n t := by
  induction k with
  | zero => exact fun _ => ⟨s, [], rfl, .refl hu hp, fun n => by simp⟩
  | succ k ih =>
    intro hk
    obtain ⟨t, vs, hlen, h, hstep⟩ := ih (by omega)
    have more : t.idx.toNat < t.lenL.toNat := by
      rw [h.idx, h.lenL]
      omega
    have hnext : step t = .next (t.absorb t.bufRead) := by
      rw [step_of_undisturbed h.undisturbed (State.blockEnabled_of_run h.running), sequencerStep_of_run h.running]
      refine runStep_element more ?_
      rw [h.lenL] at more
      rw [h.extent]
      omega
    refine ⟨_, _, by simp [hlen], h.absorb more, fun n => ?_⟩
    rw [show k + 1 + n = k + (n + 1) by omega, hstep, stepN_succ_of_next hnext]

end Sys2Proof.Machine
end

