-- ==== Sys2Proof/Tests/Slice0.lean ====
section
/-! SUPPORT. Tests against the spec's own vectors (95_test_vectors.md), and for each statement with hypotheses a state and
operands that meet them. -/

namespace Sys2Proof.Tests

open Sys2Proof.Machine

/-! ## Form and decoding (30_encoding.md R72 to R77) -/

/-- `CMD 0x00000001, 0x00000320, 0x00000320` of program P2, bit by bit from R72. -/
theorem test_decode_compute :
    decode (.ofBits 0x000003200000032000000001#96) = .instr (.compute 0x320 0x320) := by decide

/-- The three words in their own places: SIZE above CTRL, LEN above SIZE (R72). -/
theorem test_encode_compute : (encode (.compute 2 1)).toBits = 0x000000010000000200000001#96 := by decide

/-- Section 2.8: `OP = 1` with bit 31 of RSVD set is illegal. -/
theorem test_decode_reserved_bit : decode ⟨0x80000001, 1, 1⟩ = .illegal 0x80000001 := by decide

theorem test_table_word : decodeTableWord 32 0x00000001 = some (.compute 0 0) := by decide

theorem test_table_word_illegal : decodeTableWord 32 0x0000000F = none := by decide

/-- The check on OP refuses `OP = 2`, and nothing else is wrong with the word. -/
theorem test_wellFormed_op : (⟨0x2, 1, 1⟩ : CommandWords).opNamed = false ∧ (⟨0x2, 1, 1⟩ : CommandWords).rsvdClear = true ∧
    (⟨0x2, 1, 1⟩ : CommandWords).wellFormed = false := by decide

/-- The check on RSVD refuses bit 4, and nothing else is wrong with the word. -/
theorem test_wellFormed_rsvd : (⟨0x11, 1, 1⟩ : CommandWords).rsvdClear = false ∧
    (⟨0x11, 1, 1⟩ : CommandWords).opNamed = true ∧ (⟨0x11, 1, 1⟩ : CommandWords).wellFormed = false := by decide

theorem test_wellFormed_compute : (⟨0x1, 0, 0xFFFFFFFF⟩ : CommandWords).wellFormed = true := by decide

/-! ## Datapath (sections 2.1 to 2.6) -/

theorem test_xin_widths : xin (0x123#32) 0x10000 = 0x10123#32 ∧ xin (0x123#16) 0x10000 = 0x0123#16 := by decide

theorem test_fb_dirty : fb (0x3FF#32) = 0x30F#32 ∧ fb (0x0FD#32) = 0x0FD#32 := by decide

theorem test_ror1_dirty : ror1 (0xFFFFFFFF#32) = 0x7FFFFFFF#32 ∧ ror1 (0x8001#16) = 0x4100#16 := by decide

theorem test_fin_keeps_bits_4_and_6 : fin (0x1FF#32) = 0x050#32 := by decide

theorem test_crc9_order : crc9 32 [0x04, 0x00, 0x00, 0x00] 4 = some 0x131 := by decide

theorem test_crc9_dirty : crc9 32 [0xDEADBEEF, 0x1, 0x2] 3 = some 0x1BD5B651 ∧
    crc9 16 [0xDEADBEEF, 0x1, 0x2] 3 = some 0x1651 := by decide

/-! ## Single steps -/

/-- A block at rest with named contents in its registers. -/
def rest : State := { State.reset with crc := .w32 0x055, idx := 7, lenL := 9 }

/-- A block that is offered `COMPUTE size, len`. -/
def offered (size len : Word) : State := (rest.present ⟨0x1, size, len⟩)

/-- A block in a run of `len` elements before element `idx`, over the buffer `[0x40, 0x40]`. -/
def running (idx len : Word) : State :=
  { rest with crc := .w32 0x020, phase := .run, idx := idx, lenL := len, mem := [(0, 0x40), (1, 0x40)] }

/-- A command in the table's bits runs as the first instruction after reset. -/
theorem test_step_runs_table_word :
    step (State.reset.withFetchWord 32 0x00000001) = exec (.compute 0 0) (State.reset.withFetchWord 32 0x00000001) :=
  rfl

/-- Section 2.8: `COMPUTE 0, 0xFFFFFFFF` compares unsigned, and STATUS is 0x00000004. -/
theorem test_out_of_bounds_unsigned :
    ∃ t, exec (.compute 0 0xFFFFFFFF) (offered 0 0xFFFFFFFF) = .next t ∧ t.statusWord = 0x4 ∧ t.idx = 7 :=
  ⟨_, rfl, by decide, rfl⟩

/-- Section 2.7: after the accept STATUS is 0x00000001. -/
theorem test_accept_status : ∃ t, step (offered 2 2) = .next t ∧ t.statusWord = 0x1 ∧ t.crc = .w32 0 :=
  ⟨_, rfl, by decide, rfl⟩

/-- Section 1.3, element 1: 0x020 and 0x40 give 0x030, with its record (R134). -/
theorem test_element_step : ∃ t, step (running 1 2) = .next t ∧ t.crc = .w32 0x030 ∧ t.idx = 2 ∧
    t.obsLog = [⟨.elem, 1, 0x40, 0x030⟩] ∧ t.reads = [1] :=
  ⟨_, rfl, by decide, by decide, by decide, rfl⟩

/-- R135's example: 0x020 ends as 0x18F, with STATUS 0x00000002. -/
theorem test_final_step : ∃ t, step (running 2 2) = .next t ∧ t.resultWord = 0x18F ∧ t.statusWord = 0x2 ∧
    t.obsLog = [⟨.final, 2, 0, 0x18F⟩] :=
  ⟨_, rfl, by decide, by decide, by decide⟩

/-- Section 2.9: reset in the middle of a run leaves STATUS 0 and emits nothing. -/
theorem test_reset_in_run : ∃ t, step { running 1 2 with rst := true } = .next t ∧ t.statusWord = 0 ∧ t.obsLog = [] :=
  ⟨_, rfl, by decide, rfl⟩

/-- Program P5: the first run's result, read while the second command is held and not yet accepted. -/
theorem test_read_result_while_held :
    ∃ t, step { offered 2 2 with crc := .w32 0x0AF, done := true, turns := [.readResult "r1"] } = .next t ∧
      t.hostVar "r1" = some 0x0AF ∧ t.cmdValid = true :=
  ⟨_, rfl, by decide, rfl⟩

/-- Section 2.9: STATUS is read as 0x00000001 while the second command is held during the run. -/
theorem test_read_status_while_held :
    ∃ t, step { (running 1 2).present ⟨1, 2, 1⟩ with turns := [.readStatus "s"] } = .next t ∧
      t.hostVar "s" = some 0x1 ∧ t.cmdValid = true :=
  ⟨_, rfl, by decide, rfl⟩

/-- A run cut short by reset reads no further element and emits no FINAL record (R190): the ports show neither. -/
theorem test_ports_under_reset : ({ running 1 2 with rst := true } : State).bufRd = false ∧
    ({ running 2 2 with rst := true } : State).obsPort = none ∧ (running 1 2).bufRd = true := by decide

/-- The text of program P1's `COMPUTE` line, comment and all (R83, R84). -/
theorem test_assemble_compute :
    assemble "COMPUTE 1, 0x1F ; CMD" = some [.cmd ⟨0x1, 1, 0x1F⟩] := by decide

/-- `RDRES` names no number, and `BUFW` needs its comma (R83). -/
theorem test_assemble_refuses : assemble "RDRES" = none ∧ assemble "BUFW 1 2" = none := by decide

/-! ## What each statement assumes can be met -/

theorem witness_admitted_widths : AdmittedWidth 32 ∧ AdmittedWidth 16 := ⟨.inl rfl, .inr rfl⟩

theorem witness_DecodeEncodeAgree :
    (Instr.compute 1 1).wellFormed = true ∧ decode (.ofBits 0x000000010000000100000001#96) = .instr (.compute 1 1) := by
  decide

theorem witness_ConditionalXorBits : (0x0FD#32).getLsbD 1 = false ∧ (0x002#32).getLsbD 1 = true := by decide

theorem witness_RotateRightByOneBits : (0x1FF#32).toNat < 0x200 ∧ (0x1FF#16).toNat < 0x200 := by decide

theorem witness_CleanElementsKeepNineBits :
    ((0x1FF#32).toNat < 0x200 ∧ (0x1FF : Word).toNat < 0x200) ∧ (∀ v ∈ [(0x1FF : Word), 0], v.toNat < 0x200) ∧
    (running 1 2).phase = .run ∧ (running 1 2).crc.toWord.toNat < 0x200 ∧ (running 1 2).bufRead.toNat < 0x200 ∧
    ∃ t, sequencerStep (running 1 2) = .next t :=
  ⟨by decide, by simp, rfl, by decide, by decide, _, rfl⟩

/-- The last step of the run: its result is read with `DONE = 1`. -/
theorem witness_CleanElementsKeepNineBits_final :
    (running 2 2).phase = .run ∧ ¬(running 2 2).idx.toNat < (running 2 2).lenL.toNat ∧
    ∃ t, sequencerStep (running 2 2) = .next t ∧ t.done = true :=
  ⟨rfl, by decide, _, rfl, rfl⟩

theorem witness_StorageWidthsAgreeBelow16Bits : ∀ v ∈ [(0xFFFF : Word), 0].take 1, v.toNat < 2 ^ 16 := by simp

/-- LEN = SIZE, also at the top of the range. -/
theorem witness_ComputeStartsRun :
    (offered 0xFFFFFFFF 0xFFFFFFFF).phase = .idle ∧ (0xFFFFFFFF : Word).toNat ≤ (0xFFFFFFFF : Word).toNat := by decide

/-- LEN = SIZE + 1. -/
theorem witness_ComputeOutOfBounds : (offered 4 5).phase = .idle ∧ (4 : Word).toNat < (5 : Word).toNat := by decide

theorem witness_IllegalCommandEndsAtOnce :
    (rest.present ⟨0, 1, 1⟩).phase = .idle ∧ (rest.present ⟨0, 1, 1⟩).cmdValid = true ∧
    (rest.present ⟨0, 1, 1⟩).cmd.ctrl ≠ 0x00000001#32 := by decide

theorem witness_AcceptStepRule : rest.phase = .idle ∧ rest.cmdValid = false ∧ (offered 1 1).phase = .idle ∧
    (offered 1 1).cmdValid = true := by decide

theorem witness_ErrorsArePrecise :
    (offered 4 5).phase = .idle ∧ (offered 4 5).cmdValid = true ∧
    ∃ t, sequencerStep (offered 4 5) = .next t ∧ t.err ≠ .none :=
  ⟨rfl, rfl, _, rfl, by decide⟩

theorem witness_InvalidArgumentNeverProduced :
    (offered 4 5).err ≠ .invalidArgument ∧ ∃ t, step (offered 4 5) = .next t :=
  ⟨by decide, _, rfl⟩

/-- A command held during the final step, after which it is accepted. -/
theorem witness_CommandIsHeldDuringRun :
    ((running 2 2).present ⟨1, 1, 1⟩).phase = .run ∧
    ∃ t, sequencerStep ((running 2 2).present ⟨1, 1, 1⟩) = .next t ∧ t.phase = .idle ∧ t.cmdValid = true :=
  ⟨rfl, _, rfl, rfl, rfl⟩

theorem witness_ComputeFrame :
    (∃ t, exec (.compute 4 4) (offered 4 4) = .next t) ∧
    (∃ t, exec (.compute 4 5) (offered 4 5) = .next t) ∧ (4 : Word).toNat < (5 : Word).toNat :=
  ⟨⟨_, rfl⟩, ⟨_, rfl⟩, by decide⟩

theorem witness_StepRunsDecodedCommand :
    (offered 1 1).rst = false ∧ (offered 1 1).phase = .idle ∧ (offered 1 1).cmdValid = true ∧
    decode (offered 1 1).cmd = .instr (.compute 1 1) ∧ (Instr.compute 1 1).wellFormed = true ∧
    (offered 1 1).turns = [] := by decide

/-- The same offer with the block's turn listed. -/
theorem witness_StepRunsDecodedCommand_listed :
    ({ offered 1 1 with turns := [.block] } : State).turns = .block :: [] := rfl

theorem witness_WhoMovesNext :
    ({ rest with rst := true } : State).rst = true ∧ ({ rest with turns := [.host] } : State).turns = .host :: [] ∧
    rest.rst = false ∧ rest.turns = [] ∧ rest.phase = .idle ∧ rest.cmdValid = false ∧ (running 1 2).phase = .run := by
  decide

/-- The last element of a run. -/
theorem witness_ElementStepRule :
    (running 1 2).phase = .run ∧ (running 1 2).idx.toNat < (running 1 2).lenL.toNat ∧
    (running 1 2).idx.toNat < (running 1 2).extent := by decide

theorem witness_FinalStepRule : (running 2 2).phase = .run ∧ (running 2 2).idx = (running 2 2).lenL ∧
    (offered 2 2).phase = .idle ∧ (offered 2 2).rst = false ∧
    ∃ t, step (offered 2 2) = .next t ∧ t.crc ≠ (offered 2 2).crc :=
  ⟨rfl, rfl, rfl, rfl, _, rfl, by decide⟩

theorem witness_RunEndsFromAnyPoint :
    (running 1 2).Undisturbed ∧ (running 1 2).phase = .run ∧ (running 1 2).idx.toNat ≤ (running 1 2).lenL.toNat ∧
    (running 1 2).lenL.toNat ≤ (running 1 2).extent ∧ (running 1 2).raced = [] :=
  ⟨⟨rfl, rfl⟩, rfl, by decide, by decide, rfl⟩

theorem offered_offers (size len : Word) : (offered size len).Offers size len := ⟨⟨rfl, rfl⟩, rfl, rfl, rfl⟩

theorem offered_honest : (offered 2 2).Honest 2 2 := ⟨by decide, by decide, nofun⟩

/-- ComputeRunsToCrc9, RunEmitsRecordsInOrder (with and without OBS_EN) and AcceptedRunFollowsBuffer. -/
theorem witness_ComputeRunsToCrc9 :
    (offered 2 2).Offers 2 2 ∧ (offered 2 2).Honest 2 2 ∧ (offered 2 2).obsEn = true ∧
    ({ offered 2 2 with obsEn := false } : State).Offers 2 2 ∧
    ({ offered 2 2 with obsEn := false } : State).Honest 2 2 ∧
    ∃ t, exec (.compute 2 2) (offered 2 2) = .next t :=
  ⟨offered_offers 2 2, offered_honest, rfl, ⟨⟨rfl, rfl⟩, rfl, rfl, rfl⟩, ⟨by decide, by decide, nofun⟩, _, rfl⟩

theorem witness_ComputeStepCount :
    (offered 2 2).Offers 2 2 ∧ (2 : Word).toNat ≤ (2 : Word).toNat ∧ (2 : Word).toNat ≤ (offered 2 2).extent ∧
    (offered 4 5).Offers 4 5 ∧ (4 : Word).toNat < (5 : Word).toNat :=
  ⟨offered_offers 2 2, by decide, by decide, offered_offers 4 5, by decide⟩

theorem witness_RunReadsEachElementOnceInOrder :
    (offered 2 2).Offers 2 2 ∧ (2 : Word).toNat ≤ (2 : Word).toNat ∧ (2 : Word).toNat ≤ (offered 2 2).extent ∧
    (offered 4 5).phase = .idle ∧ ∃ t, sequencerStep (offered 4 5) = .next t :=
  ⟨offered_offers 2 2, by decide, by decide, rfl, _, rfl⟩

/-- Also with an empty buffer, SIZE = 0. -/
theorem witness_LengthZeroSkipsToFinal : (offered 0 0).Offers 0 0 ∧ (offered 5 0).Offers 5 0 :=
  ⟨offered_offers 0 0, offered_offers 5 0⟩

/-- The run before element 1 of `[0x40, 0x40]` follows it: element 0 gave 0x020. -/
theorem running_follows : (running 1 2).Follows [0x40, 0x40] where
  running := rfl
  lengthLatched := rfl
  idxInside := by decide
  fed := by decide
  ahead := by
    intro i h1 h2
    have h1' : 1 ≤ i := h1
    have h2' : i < 2 := h2
    obtain rfl : i = 1 := by omega
    rfl
  settled := nofun
  raceFree := rfl

theorem witness_RunFollowsBufferUnderAnyOrder :
    (running 1 2).Follows [0x40, 0x40] ∧ (running 1 2).rst = false ∧
    ∃ t, step (running 1 2) = .next t ∧ t.raced = [] :=
  ⟨running_follows, rfl, _, rfl, rfl⟩

/-- A run that has read element 0 of two, one that has read both, and an accept. -/
theorem witness_AnyOrderKeepsReadsAndRecords :
    { running 1 2 with reads := [0], obsLog := [⟨.elem, 0, 0x40, 0x020⟩] }.Ran [] [] [0x40] ∧
    { running 1 2 with obsEn := false, reads := [7, 0] }.Ran [7] [] [0x40] ∧
    { running 2 2 with crc := .w32 0x030, reads := [0, 1], obsEn := false }.Ran [] [] [0x40, 0x40] ∧
    (running 1 2).rst = false ∧ (∃ t, step (running 1 2) = .next t) ∧
    (offered 2 2).phase = .idle ∧ ∃ t, exec (.compute 2 2) (offered 2 2) = .next t ∧ t.phase = .run :=
  ⟨⟨rfl, rfl, by decide, by decide, by decide, by decide⟩, ⟨rfl, rfl, by decide, by decide, by decide, by decide⟩,
    ⟨rfl, rfl, by decide, by decide, by decide, by decide⟩, rfl, ⟨_, rfl⟩, rfl, _, rfl, rfl⟩

/-- Two states that differ in SIZE, in an element at LEN, and in the register an earlier run left. -/
theorem witness_ResultDependsOnElementsAlone :
    let s := offered 2 1
    let s' := { offered 5 1 with crc := .w32 0x1FF, mem := [(1, 0x12345678)] }
    s.Offers 2 1 ∧ s'.Offers 5 1 ∧ s.Honest 2 1 ∧ s'.Honest 5 1 ∧ s.crc.width = s'.crc.width ∧
    ∀ i, i < (1 : Word).toNat → s.elemAt i = s'.elemAt i := by
  refine ⟨⟨⟨rfl, rfl⟩, rfl, rfl, rfl⟩, ⟨⟨rfl, rfl⟩, rfl, rfl, rfl⟩, ⟨by decide, by decide, nofun⟩,
    ⟨by decide, by decide, nofun⟩, rfl, ?_⟩
  intro i hi
  have hi' : i < 1 := hi
  obtain rfl : i = 0 := by omega
  rfl

/-- Also for the two turns that change the buffer. -/
theorem witness_OnlySequencerWritesRegisters :
    (∃ t, takeTurn .host rest = .next t) ∧
    (∃ t, takeTurn .host { rest with program := [.bufw 1 5] } = .next t ∧ t.mem ≠ rest.mem) ∧
    ∃ t, takeTurn .landWrite { rest with outstanding := [(1, 5)] } = .next t ∧ t.mem ≠ rest.mem :=
  ⟨⟨_, rfl⟩, ⟨_, rfl, by decide⟩, _, rfl, by decide⟩

theorem witness_WhatChangesDone :
    (∃ t, step (running 2 2) = .next t ∧ t.done ≠ (running 2 2).done) ∧
    ∃ t, step { offered 2 2 with done := true } = .next t ∧ t.done = false :=
  ⟨⟨_, rfl, by decide⟩, _, rfl, rfl⟩

theorem witness_ErrorStaysUntilAcceptOrReset :
    (∃ t, step (offered 4 5) = .next t ∧ t.err ≠ (offered 4 5).err) ∧
    ∃ t, step { rest with err := .outOfBounds, rst := true } = .next t ∧ t.err ≠ .outOfBounds :=
  ⟨⟨_, rfl, by decide⟩, _, rfl, by decide⟩

theorem witness_WhatChangesIdx :
    (∃ t, step (offered 2 2) = .next t ∧ t.idx ≠ (offered 2 2).idx) ∧
    ∃ t, step (running 1 2) = .next t ∧ t.idx ≠ (running 1 2).idx :=
  ⟨⟨_, rfl, by decide⟩, _, rfl, by decide⟩

/-- Reset changes an IDX that is not the free value it leaves. -/
theorem witness_WhatChangesIdx_reset :
    ∃ t, step { rest with rst := true, idx := Config.freeIdx 1 + 1 } = .next t ∧ t.idx ≠ Config.freeIdx 1 + 1 :=
  ⟨_, rfl, by
    change Config.freeIdx 1 ≠ Config.freeIdx 1 + 1
    bv_omega⟩

theorem witness_BlockNeverWritesBuffer : ∃ t, sequencerStep (running 1 2) = .next t := ⟨_, rfl⟩

/-- PortsShowReadsAndRecords: an element step, a final step, a block at rest and a reset, with the observer and without. -/
theorem witness_PortsShowReadsAndRecords :
    (running 1 2).rst = false ∧ (∃ t, sequencerStep (running 1 2) = .next t) ∧ (running 1 2).obsEn = true ∧
    (running 1 2).phase = .run ∧ (running 1 2).idx.toNat ≤ (running 1 2).lenL.toNat ∧
    (∃ t, sequencerStep rest = .next t) ∧ rest.phase = .idle ∧
    (∃ t, sequencerStep { running 2 2 with obsEn := false } = .next t) ∧
    ∃ t, step { running 2 2 with rst := true } = .next t :=
  ⟨rfl, ⟨_, rfl⟩, rfl, rfl, by decide, ⟨_, rfl⟩, rfl, ⟨_, rfl⟩, _, rfl⟩

theorem witness_ParametersNeverChange : ∃ t, step (running 1 2) = .next t := ⟨_, rfl⟩

theorem witness_ResultWordIsCrcWhenDone : ({ rest with done := true } : State).done = true ∧ rest.done = false := by
  decide

theorem witness_StatusAndResultAppearTogether :
    (running 2 2).rst = false ∧ (running 2 2).busy = true ∧ ∃ t, step (running 2 2) = .next t ∧ t.busy = false :=
  ⟨rfl, rfl, _, rfl, rfl⟩

/-- The highest element of the buffer at reset; the next one is not there. -/
theorem witness_BufferWriteIsSeen :
    (0xFFFFFFFE : Word).toNat < rest.extent ∧ (∃ t, hostLine (.bufw 0xFFFFFFFE 1) [] rest = .next t) ∧
    hostLine (.bufw 0xFFFFFFFF 1) [] rest = .refused .hostWritePastEnd :=
  ⟨by decide, ⟨_, rfl⟩, rfl⟩

/-- The highest element, a write that completes, and none under way. -/
theorem witness_IssuedWriteLandsLater :
    (0xFFFFFFFE : Word).toNat < rest.extent ∧ (∃ t, takeTurn (.issueWrite 0xFFFFFFFE 1) rest = .next t) ∧
    ({ rest with outstanding := [(0xFFFFFFFE, 1)] } : State).outstanding = (0xFFFFFFFE, 1) :: [] ∧
    rest.outstanding = [] ∧ takeTurn (.issueWrite 0xFFFFFFFF 1) rest = .refused .hostWritePastEnd :=
  ⟨by decide, ⟨_, rfl⟩, rfl, rfl, rfl⟩

/-- A write to the next element and to the last one races a run; one to an element read, or at LEN_L, does not. -/
theorem witness_RacedReadIsFree :
    (∃ t, hostWrite 1 5 (running 1 3) = .next t ∧ (1 : Word) ∈ t.raced) ∧
    (∃ t, issueWrite 2 5 (running 1 3) = .next t ∧ (2 : Word) ∈ t.raced) ∧
    (∃ t, hostWrite 0 5 (running 1 3) = .next t ∧ t.raced = []) ∧
    (∃ t, hostWrite 3 5 (running 1 3) = .next t ∧ t.raced = []) :=
  ⟨⟨_, rfl, by decide⟩, ⟨_, rfl, by decide⟩, ⟨_, rfl, by decide⟩, _, rfl, by decide⟩

/-- A write on its way at acceptance races the run if it is below LEN. -/
theorem witness_RacedReadIsFree_accept :
    ∃ t, exec (.compute 4 2) { offered 4 2 with outstanding := [(1, 5), (2, 5)] } = .next t ∧ t.raced = [1] :=
  ⟨_, rfl, by decide⟩

theorem witness_HostHoldsOrWithdrawsCommand : (offered 1 1).cmdValid = true := rfl

theorem witness_WaitEndsWhenIdle :
    ({ running 1 2 with program := [.wait] } : State).busy = true ∧
    ({ rest with program := [.wait] } : State).busy = false ∧
    ({ rest with program := [.wait] } : State).program = .wait :: [] ∧ rest.cmdValid = false := by decide

theorem witness_ResetFromAnyState : ({ running 1 2 with rst := true } : State).rst = true := rfl

theorem witness_IdleBlockIsQuiescent :
    rest.phase = .idle ∧ rest.cmdValid = false ∧ rest.rst = false ∧ rest.turns = [] ∧ rest.program = [] := by decide

/-- A run of the invariant, for StepKeepsInvariant and OnlyTheHostCanStopTheMachine. -/
theorem running_inv : (running 1 2).Inv where
  memWf := by decide
  memInside := by simp [running, rest, State.reset]
  outstandingInside := nofun
  errProduced := by decide
  doneEnds := nofun
  runInside := fun _ => by decide
  racedInside := nofun

theorem witness_StepKeepsInvariant : (running 1 2).Inv ∧ ∃ t, step (running 1 2) = .next t := ⟨running_inv, _, rfl⟩

/-- A host write at the real end of the buffer is refused, by a BUFW line and when it is issued. -/
theorem witness_OnlyTheHostCanStopTheMachine_write :
    step { rest with extent := 2, program := [.bufw 2 5] } = .refused .hostWritePastEnd ∧
    step { rest with extent := 2, turns := [.issueWrite 2 5] } = .refused .hostWritePastEnd :=
  ⟨rfl, rfl⟩

theorem witness_OnlyTheHostCanStopTheMachine_inv : ({ rest with extent := 2, program := [.bufw 2 5] } : State).Inv where
  memWf := by decide
  memInside := nofun
  outstandingInside := nofun
  errProduced := by decide
  doneEnds := nofun
  runInside := nofun
  racedInside := nofun

/-- The host calls its buffer larger than it is: the read past its real end is refused (R144, I7). -/
theorem witness_OnlyTheHostCanStopTheMachine :
    ({ running 1 2 with mem := [], extent := 1 } : State).Inv ∧
    step { running 1 2 with mem := [], extent := 1 } = .refused .bufferReadPastEnd :=
  ⟨⟨by decide, nofun, nofun, by decide, nofun, fun _ => by decide, nofun⟩, rfl⟩

end Sys2Proof.Tests
end

section
/-! PROOFS. The STATUS word bit by bit, and what the host's read of it changes (10_state.md R30; 30_encoding.md R83). -/

namespace Sys2Proof.Machine

/-! ## The layout of STATUS -/

theorem State.getLsbD_statusWord (s : State) (i : Nat) :
    s.statusWord.getLsbD i =
      if i = 0 then s.busy else if i = 1 then s.done else s.err.bits.getLsbD (i - 2) := by
  have fields : s.statusWord.getLsbD i =
      (0#28 ++ s.err.bits ++ BitVec.ofBool s.done ++ BitVec.ofBool s.busy : BitVec (28 + 2 + 1 + 1)).getLsbD i := rfl
  rw [fields]
  simp only [BitVec.getLsbD_append]
  rcases i with _ | _ | i
  · simp
  · simp
  · have insideErr : s.err.bits.getLsbD i = true → i ≤ 1 := fun set => Nat.le_of_lt_succ (BitVec.lt_of_getLsbD set)
    simpa using insideErr

theorem State.extractLsb'_two_statusWord (s : State) : s.statusWord.extractLsb' 2 2 = s.err.bits := by
  ext i hi
  have below : ¬ 2 + i = 0 ∧ ¬ 2 + i = 1 := by omega
  simp [State.getLsbD_statusWord, below, hi]

theorem State.extractLsb'_four_statusWord (s : State) : s.statusWord.extractLsb' 4 28 = 0 := by
  ext i hi
  have past : s.err.bits.getLsbD (4 + i - 2) = false := BitVec.getLsbD_of_ge _ _ (by omega)
  have below : ¬ 4 + i = 0 ∧ ¬ 4 + i = 1 := by omega
  simp [State.getLsbD_statusWord, below, past]

/-! ## The host's variables -/

@[simp] theorem State.hostVar_setVar (s : State) (name : String) (v : Word) :
    (s.setVar name v).hostVar name = some v := by simp [State.hostVar]

@[simp] theorem State.blockRegs_setVar (s : State) (name : String) (v : Word) :
    (s.setVar name v).blockRegs = s.blockRegs := rfl

@[simp] theorem State.statusWord_setVar (s : State) (name : String) (v : Word) :
    (s.setVar name v).statusWord = s.statusWord := rfl

theorem State.setVar_eq_with_hostVars (s : State) (name : String) (v : Word) :
    s.setVar name v = { s with hostVars := (s.setVar name v).hostVars } := rfl

/-! ## The read of STATUS -/

theorem takeTurn_readStatus (name : String) (s : State) :
    takeTurn (.readStatus name) s = .next (s.setVar name s.statusWord) := rfl

/-- The line leaves the program, and STATUS does not depend on the program. -/
theorem hostLine_rdstat (name : String) (rest : List HostLine) (s : State) :
    hostLine (.rdstat name) rest s = .next ({ s with program := rest }.setVar name s.statusWord) := rfl

/-- Settles O43: the layout is `getLsbD_statusWord` at the fields' places, and both reads are a `setVar` of the host. -/
theorem statusWordLayout : Obligations.StatusWordLayout := by
  intro s
  refine ⟨s.getLsbD_statusWord 0, s.getLsbD_statusWord 1, s.extractLsb'_two_statusWord,
    s.extractLsb'_four_statusWord, fun name => ⟨?turn, fun rest => ?line⟩⟩
  case turn =>
    exact ⟨_, takeTurn_readStatus name s, s.hostVar_setVar name _, s.blockRegs_setVar name _,
      s.statusWord_setVar name _, s.setVar_eq_with_hostVars name _⟩
  case line =>
    exact ⟨_, hostLine_rdstat name rest s, State.hostVar_setVar _ name _, State.blockRegs_setVar _ name _,
      State.statusWord_setVar _ name _, State.setVar_eq_with_hostVars _ name _⟩

end Sys2Proof.Machine
end

section
/-! PROOFS. A run that nothing disturbs, from the offer of its command to its final step, and the elements it reads
(20_memory.md R53; 41_sequencer.md R132 to R135). -/

namespace Sys2Proof.Machine

/-! ## The accept of an offered command -/

theorem decode_encode_compute (size len : Word) : decode (encode (.compute size len)) = .instr (.compute size len) := by
  simp [decode, encode]

theorem State.Undisturbed.startRun {s : State} (h : s.Undisturbed) (len : Word) :
    (s.takeCommand.startRun len).Undisturbed := h

/-- An offered command is accepted in the next step. -/
theorem State.Offers.step_eq_execCompute {s : State} {size len : Word} (h : s.Offers size len) :
    step s = execCompute size len s := by
  obtain ⟨undisturbed, idle, valid, words⟩ := h
  have enabled : s.blockEnabled = true := by simp [State.blockEnabled, valid]
  rw [step_of_undisturbed undisturbed enabled]
  simp [sequencerStep, idle, valid, acceptStep, words, decode_encode_compute, exec]

theorem State.Offers.step_eq_startRun {s : State} {size len : Word} (h : s.Offers size len)
    (within : len.toNat ≤ size.toNat) : step s = .next (s.takeCommand.startRun len) := by
  rw [h.step_eq_execCompute, execCompute_of_idle h.idle, if_pos ((lenWithinSize_iff size len).mpr within)]

/-! ## The run to its end -/

/-- From any point of a run, the elements still to come and then the final step. -/
theorem stepN_to_finish {s : State} (hu : s.Undisturbed) (hp : s.phase = .run) (hidx : s.idx.toNat ≤ s.lenL.toNat)
    (inside : s.lenL.toNat ≤ s.extent) :
    ∃ t vs, vs.length = s.lenL.toNat - s.idx.toNat ∧ s.Fed t vs ∧
      stepN (s.lenL.toNat - s.idx.toNat + 1) s = .next t.finish := by
  obtain ⟨t, vs, hlen, fed, elements⟩ :=
    stepN_elements hu hp inside (s.lenL.toNat - s.idx.toNat) (by omega)
  have atEnd : t.idx = t.lenL := BitVec.eq_of_toNat_eq (by rw [fed.idx, fed.lenL, hlen]; omega)
  have final : step t = .next t.finish := by
    rw [step_of_undisturbed fed.undisturbed (State.blockEnabled_of_run fed.running), sequencerStep_of_run fed.running,
      runStep_final atEnd]
  exact ⟨t, vs, hlen, fed, by rw [elements, stepN_succ_of_next final, stepN]⟩

/-- The whole of an offered command: the accept step, `LEN` element steps and the final step. -/
theorem State.Offers.stepN_to_finish {s : State} {size len : Word} (h : s.Offers size len)
    (within : len.toNat ≤ size.toNat) (held : len.toNat ≤ s.extent) :
    ∃ t vs, vs.length = len.toNat ∧ (s.takeCommand.startRun len).Fed t vs ∧
      stepN (len.toNat + 2) s = .next t.finish := by
  obtain ⟨t, vs, hlen, fed, run⟩ :=
    Machine.stepN_to_finish (h.undisturbed.startRun len) rfl (Nat.zero_le _) held
  exact ⟨t, vs, hlen, fed, by rw [stepN_succ_of_next (h.step_eq_startRun within)]; exact run⟩

/-! ## The elements read -/

/-- Only the element step reads, and it is a step of a run. -/
theorem TurnEffect.reads_of_idle {s t : State} (h : TurnEffect s t) (idle : s.phase = .idle) : t.reads = s.reads := by
  cases h
  case element running _ _ => cases idle.symm.trans running
  all_goals rfl

/-- Settles O29: `stepN_to_finish` takes an offered command to its end, where `State.Fed.reads` names the reads of a run
that began at element 0; and a block in `IDLE` takes no element step. -/
theorem runReadsEachElementOnceInOrder : Obligations.RunReadsEachElementOnceInOrder := by
  refine ⟨fun s size len offers within held => ?run,
    fun s t idle stepped => (sequencerStep_effect stepped).reads_of_idle idle⟩
  case run =>
    obtain ⟨t, vs, hlen, fed, steps⟩ := offers.stepN_to_finish within held
    refine ⟨t.finish, steps, rfl, ?_⟩
    rw [State.finish_reads, fed.reads, hlen, List.range_eq_range']
    rfl

end Sys2Proof.Machine
end

section
/-! PROOFS. What a command decodes to, by its `CTRL` word, and the host lines that a pseudo-instruction stands for
(30_encoding.md R77, R84). -/

namespace Sys2Proof

/-! ## Decoding by CTRL -/

theorem decode_of_ctrl_eq {c : CommandWords} (h : c.ctrl = ctrlCompute) :
    decode c = .instr (.compute c.size c.len) := if_pos h

theorem decode_of_ctrl_ne {c : CommandWords} (h : c.ctrl ≠ ctrlCompute) : decode c = .illegal c.ctrl := if_neg h

/-- Settles O1: by the CTRL word of the bits; `ofBits` takes the three words from the places of R72. -/
theorem decodeIsTotal : Obligations.DecodeIsTotal := by
  intro b
  split
  case isTrue compute => exact decode_of_ctrl_eq (c := .ofBits b) compute
  case isFalse other => exact decode_of_ctrl_ne (c := .ofBits b) other

end Sys2Proof

namespace Sys2Proof.Machine

/-! ## The pseudo-instructions -/

theorem pseudoCompute_eq (size len : Word) : pseudoCompute size len = [.cmd ⟨0x00000001, size, len⟩] := rfl

@[simp] theorem length_pseudoBufFill (n : Nat) (v : Word) : (pseudoBufFill n v).length = n := by
  simp [pseudoBufFill]

theorem getElem?_pseudoBufFill {n i : Nat} (v : Word) (h : i < n) :
    (pseudoBufFill n v)[i]? = some (.bufw (BitVec.ofNat 32 i) v) := by
  rw [pseudoBufFill, List.getElem?_map, List.getElem?_range h, Option.map_some]

theorem pseudoCrc_eq (size len : Word) (name : String) :
    pseudoCrc size len name = [.cmd ⟨0x00000001, size, len⟩, .wait, .rdres name] := by
  rw [pseudoCrc, pseudoCompute_eq, List.singleton_append]

/-- Settles O50: BUFFILL is a `map` over the indices below `n`, so it has length `n` and line `i` is the image of `i`. -/
theorem pseudoInstructionExpansions : Obligations.PseudoInstructionExpansions :=
  ⟨pseudoCompute_eq, fun n v => ⟨length_pseudoBufFill n v, fun _ => getElem?_pseudoBufFill v⟩, pseudoCrc_eq⟩

end Sys2Proof.Machine
end

section
/-! PROOFS. The input XOR, the conditional XOR and the shifter, bit by bit, at the two admitted widths (40_datapath.md R101,
R102, R104). -/

namespace Sys2Proof.Machine

variable {w : Nat}

/-! ## The admitted widths

The bit laws hold from 9 bits up and, where an element enters, up to its 32 bits. The top bit of `ror1` needs a tenth. -/

theorem AdmittedWidth.le_32 (hw : AdmittedWidth w) : w ≤ 32 := by
  obtain rfl | rfl := hw <;> decide

theorem AdmittedWidth.nine_lt (hw : AdmittedWidth w) : 9 < w := by
  obtain rfl | rfl := hw <;> decide

theorem AdmittedWidth.nine_le (hw : AdmittedWidth w) : 9 ≤ w := hw.nine_lt.le

theorem AdmittedWidth.eight_le (hw : AdmittedWidth w) : 8 ≤ w := by
  have := hw.nine_lt
  omega

/-! ## The input XOR -/

theorem xin_zero (hw : AdmittedWidth w) (c : BitVec w) : xin c 0 = c := by
  simp [xin, BitVec.setWidth_setWidth_of_le c hw.le_32]

/-- Settles O5: the bit law of `xin` below the width, and at `v = 0`. -/
theorem inputXorIsUnmasked : Obligations.InputXorIsUnmasked := by
  refine ⟨fun w hw c v => ⟨fun i hi => ?bit, xin_zero hw c⟩, by decide⟩
  case bit => rw [getLsbD_xin c v i hw.le_32, decide_eq_true hi, Bool.true_and]

/-! ## The conditional XOR -/

theorem fb_of_bit_clear {c : BitVec w} (clear : c.getLsbD 1 = false) : fb c = c := by simp [fb, clear]

theorem getLsbD_fb_of_bit_set (hw : AdmittedWidth w) {c : BitVec w} (set : c.getLsbD 1 = true) (i : Nat) :
    (fb c).getLsbD i = if 4 ≤ i ∧ i ≤ 7 then !c.getLsbD i else c.getLsbD i := by
  rw [getLsbD_fb c i hw.eight_le, set, Bool.true_and]
  split
  case isTrue inside => rw [decide_eq_true inside, Bool.xor_true]
  case isFalse outside => rw [decide_eq_false outside, Bool.xor_false]

/-- Settles O6: by the value of the test bit. -/
theorem conditionalXorBits : Obligations.ConditionalXorBits :=
  ⟨fun _ hw _ => ⟨fb_of_bit_clear, fun set i _ => getLsbD_fb_of_bit_set hw set i⟩, by decide, by decide⟩

/-! ## The shifter -/

/-- Below 0x200 there is no bit 9 to merge with the old bit 0. -/
theorem getLsbD_ror1_eight (hw : AdmittedWidth w) {c : BitVec w} (clean : c.toNat < 0x200) :
    (ror1 c).getLsbD 8 = c.getLsbD 0 := by
  have noNinth : c.getLsbD 9 = false := (toNat_lt_two_pow_iff c 9).mp clean 9 le_rfl
  rw [getLsbD_ror1 c 8 hw.nine_le, noNinth]
  simp

theorem getLsbD_ror1_pred (hw : AdmittedWidth w) (c : BitVec w) {k : Nat} (low : 1 ≤ k) (high : k ≤ 8) :
    (ror1 c).getLsbD (k - 1) = c.getLsbD k := by
  have notTop : k - 1 ≠ 8 := by omega
  rw [getLsbD_ror1 c (k - 1) hw.nine_le, Nat.sub_add_cancel low]
  simp [notTop]

/-- Each bit of `c` is OR-ed into some bit of `ror1 c`: bit 0 into bit 8, and bit `i + 1` into bit `i`. -/
theorem ror1_eq_zero_iff (hw : AdmittedWidth w) (c : BitVec w) : ror1 c = 0 ↔ c = 0 := by
  constructor
  case mp =>
    intro zero
    have merged (i : Nat) : (c.getLsbD (i + 1) || (c.getLsbD 0 && decide (i = 8))) = false := by
      rw [← getLsbD_ror1 c i hw.nine_le, zero]
      exact BitVec.getLsbD_zero
    refine BitVec.eq_of_getLsbD_eq fun i _ => ?_
    cases i with
    | zero => simpa using (Bool.or_eq_false_iff.mp (merged 8)).2
    | succ i => simpa using (Bool.or_eq_false_iff.mp (merged i)).1
  case mpr =>
    rintro rfl
    simp [ror1]

theorem getLsbD_ror1_top (hw : AdmittedWidth w) (c : BitVec w) : (ror1 c).getLsbD (w - 1) = false := by
  have wide := hw.nine_lt
  have pastTop : c.getLsbD (w - 1 + 1) = false := BitVec.getLsbD_of_ge _ _ (by omega)
  have notEight : w - 1 ≠ 8 := by omega
  rw [getLsbD_ror1 c (w - 1) hw.nine_le, pastTop]
  simp [notEight]

/-- Settles O7: each clause is the bit law of `ror1` at the bits it names. -/
theorem rotateRightByOneBits : Obligations.RotateRightByOneBits := by
  refine ⟨fun w hw c => ⟨fun i _ => ?bit, fun clean => ?rotation, ror1_eq_zero_iff hw c, getLsbD_ror1_top hw c⟩,
    by decide, by decide, by decide⟩
  case bit => rw [getLsbD_ror1 c i hw.nine_le, Bool.and_comm]
  case rotation => exact ⟨getLsbD_ror1_eight hw clean, fun _ => getLsbD_ror1_pred hw c⟩

end Sys2Proof.Machine
end

section
/-! PROOFS. Containment: from 9 bits up, no operation sets a bit above the ones its operands have, so a register below
`2 ^ n` stays there while the elements do (40_datapath.md R113, R115; 41_sequencer.md R133 to R135). -/

namespace Sys2Proof.Machine

variable {w n : Nat} {c : BitVec w} {v : Word}

/-! ## The operations -/

theorem xin_lt_two_pow (hw : AdmittedWidth w) (hc : c.toNat < 2 ^ n) (hv : v.toNat < 2 ^ n) :
    (xin c v).toNat < 2 ^ n := by
  rw [toNat_lt_two_pow_iff] at hc hv ⊢
  intro i hi
  simp [getLsbD_xin c v i hw.le_32, hc i hi, hv i hi]

theorem fb_lt_two_pow (hw : AdmittedWidth w) (hn : 9 ≤ n) (hc : c.toNat < 2 ^ n) : (fb c).toNat < 2 ^ n := by
  rw [toNat_lt_two_pow_iff] at hc ⊢
  intro i hi
  have above : ¬(4 ≤ i ∧ i ≤ 7) := by omega
  rw [getLsbD_fb c i hw.eight_le, hc i hi, decide_eq_false above, Bool.and_false, Bool.xor_false]

theorem ror1_lt_two_pow (hw : AdmittedWidth w) (hn : 9 ≤ n) (hc : c.toNat < 2 ^ n) : (ror1 c).toNat < 2 ^ n := by
  rw [toNat_lt_two_pow_iff] at hc ⊢
  intro i hi
  have above : i ≠ 8 := by omega
  rw [getLsbD_ror1 c i hw.nine_le, hc (i + 1) (by omega), decide_eq_false above, Bool.and_false, Bool.or_false]

theorem fin_lt_two_pow (hw : AdmittedWidth w) (hn : 9 ≤ n) (hc : c.toNat < 2 ^ n) : (fin c).toNat < 2 ^ n := by
  rw [toNat_lt_two_pow_iff] at hc ⊢
  intro i hi
  have above : ¬(i ≤ 8 ∧ i ≠ 4 ∧ i ≠ 6) := by omega
  rw [getLsbD_fin c i hw.nine_le, hc i hi, decide_eq_false above, Bool.xor_false]

theorem stepElem_lt_two_pow (hw : AdmittedWidth w) (hn : 9 ≤ n) (hc : c.toNat < 2 ^ n) (hv : v.toNat < 2 ^ n) :
    (stepElem c v).toNat < 2 ^ n :=
  ror1_lt_two_pow hw hn (fb_lt_two_pow hw hn (xin_lt_two_pow hw hc hv))

theorem feed_lt_two_pow (hw : AdmittedWidth w) (hn : 9 ≤ n) {vs : List Word} (hc : c.toNat < 2 ^ n)
    (hvs : ∀ v ∈ vs, v.toNat < 2 ^ n) : (feed c vs).toNat < 2 ^ n := by
  induction vs generalizing c with
  | nil => exact hc
  | cons v vs ih =>
    obtain ⟨hv, hvs⟩ := List.forall_mem_cons.mp hvs
    exact ih (stepElem_lt_two_pow hw hn hc hv) hvs

/-- From the all-zero register of a run (40_datapath.md R107). -/
theorem feed_zero_lt_two_pow (hw : AdmittedWidth w) (hn : 9 ≤ n) {vs : List Word}
    (hvs : ∀ v ∈ vs, v.toNat < 2 ^ n) : (feed (0 : BitVec w) vs).toNat < 2 ^ n :=
  feed_lt_two_pow hw hn (by simp) hvs

theorem kTop_eq_shiftLeft : kTop w = (1 : BitVec w) <<< 8 := by
  refine BitVec.eq_of_toNat_eq ?_
  simp [kTop, Nat.shiftLeft_eq]

/-- The shifter as one formula: what is OR-ed in is the old bit 0, moved to bit 8. -/
theorem ror1_eq_or_shiftLeft (c : BitVec w) : ror1 c = (c >>> 1) ||| ((c &&& 1) <<< 8) := by
  have bitZero : c &&& 1 = (BitVec.ofBool (c.getLsbD 0)).setWidth w := BitVec.and_one_eq_setWidth_ofBool_getLsbD
  rw [ror1, bitZero]
  split
  case isTrue set =>
    have widened : (BitVec.ofBool true).setWidth w = 1 := BitVec.setWidth_ofNat_one_eq_ofNat_one_of_lt Nat.one_pos
    rw [set, widened, kTop_eq_shiftLeft]
  case isFalse clear => simp [clear]

/-! ## The register over its storage -/

/-- Widening to a word changes no value. -/
theorem CrcReg.toNat_toWord (r : CrcReg) : r.toWord.toNat = r.bits.toNat := by
  cases r with
  | w32 c => rfl
  | w16 c => exact BitVec.toNat_setWidth_of_le (by decide)

theorem CrcReg.absorb_lt_two_pow (hn : 9 ≤ n) {r : CrcReg} (hr : r.toWord.toNat < 2 ^ n) (hv : v.toNat < 2 ^ n) :
    (r.absorb v).toWord.toNat < 2 ^ n := by
  rw [CrcReg.toNat_toWord] at hr ⊢
  cases r with
  | w32 c => exact stepElem_lt_two_pow (c := c) (.inl rfl) hn hr hv
  | w16 c => exact stepElem_lt_two_pow (c := c) (.inr rfl) hn hr hv

theorem CrcReg.finish_lt_two_pow (hn : 9 ≤ n) {r : CrcReg} (hr : r.toWord.toNat < 2 ^ n) :
    r.finish.toWord.toNat < 2 ^ n := by
  rw [CrcReg.toNat_toWord] at hr ⊢
  cases r with
  | w32 c => exact fin_lt_two_pow (c := c) (.inl rfl) hn hr
  | w16 c => exact fin_lt_two_pow (c := c) (.inr rfl) hn hr

/-! ## The steps of a run -/

/-- What the sequencer does in a run, if it goes on: an element step or the final step. -/
theorem runStep_next_cases {s t : State} (h : runStep s = .next t) :
    (s.idx.toNat < s.lenL.toNat ∧ t = s.absorb s.bufRead) ∨ (s.idx = s.lenL ∧ t = s.finish) := by
  unfold runStep at h
  split at h
  case isTrue more =>
    unfold elementStep at h
    split at h
    · exact .inl ⟨more, (Outcome.next_inj.mp h).symm⟩
    · cases h
  case isFalse =>
    split at h
    case isTrue atEnd => exact .inr ⟨atEnd, (Outcome.next_inj.mp h).symm⟩
    case isFalse => cases h

theorem runStep_crc_lt_two_pow (hn : 9 ≤ n) {s t : State} (hcrc : s.crc.toWord.toNat < 2 ^ n)
    (hread : s.idx.toNat < s.lenL.toNat → s.bufRead.toNat < 2 ^ n) (h : runStep s = .next t) :
    t.crc.toWord.toNat < 2 ^ n := by
  obtain ⟨more, rfl⟩ | ⟨-, rfl⟩ := runStep_next_cases h
  · exact CrcReg.absorb_lt_two_pow hn hcrc (hread more)
  · exact CrcReg.finish_lt_two_pow hn hcrc

theorem extractLsb'_nine_eq_zero (clean : v.toNat < 0x200) : v.extractLsb' 9 23 = 0 := by
  refine BitVec.eq_of_toNat_eq ?_
  rw [BitVec.extractLsb'_toNat, Nat.shiftRight_eq_zero _ _ clean]
  rfl

theorem State.resultWord_of_done {s : State} (done : s.done = true) : s.resultWord = s.crc.toWord := if_pos done

/-- Settles O9: containment at `n = 9`, of one operation, of a run's elements, and of the sequencer's step. -/
theorem cleanElementsKeepNineBits : Obligations.CleanElementsKeepNineBits := by
  refine ⟨fun w hw c v hc hv => ?operations, fun w hw vs hvs => ?run, fun s t running hcrc hread stepped => ?step⟩
  case operations =>
    exact ⟨xin_lt_two_pow (n := 9) hw hc hv, fb_lt_two_pow (n := 9) hw le_rfl hc,
      ror1_lt_two_pow (n := 9) hw le_rfl hc, stepElem_lt_two_pow (n := 9) hw le_rfl hc hv,
      fin_lt_two_pow (n := 9) hw le_rfl hc, ror1_eq_or_shiftLeft c⟩
  case run =>
    exact ⟨fun k => feed_zero_lt_two_pow (n := 9) hw le_rfl fun v hv => hvs v (List.mem_of_mem_take hv),
      fin_lt_two_pow (n := 9) hw le_rfl (feed_zero_lt_two_pow hw le_rfl hvs)⟩
  case step =>
    rw [sequencerStep_of_run running] at stepped
    have clean : t.crc.toWord.toNat < 0x200 := runStep_crc_lt_two_pow (n := 9) le_rfl hcrc hread stepped
    exact ⟨clean, fun done => by rw [State.resultWord_of_done done, extractLsb'_nine_eq_zero clean]⟩

end Sys2Proof.Machine
end

section
/-! PROOFS. Which operations undo themselves, and which are one to one on the values below 0x200 (40_datapath.md R114). -/

namespace Sys2Proof.Machine

variable {w : Nat}

/-! ## The involutions -/

theorem xin_xin (hw : AdmittedWidth w) (c : BitVec w) (v : Word) : xin (xin c v) v = c := by
  refine BitVec.eq_of_getLsbD_eq fun i hi => ?_
  rw [getLsbD_xin _ v i hw.le_32, getLsbD_xin c v i hw.le_32, decide_eq_true hi, Bool.true_and, Bool.true_and,
    Bool.xor_assoc, Bool.xor_self, Bool.xor_false]

/-- `fb` leaves its own test bit, bit 1, as it is. -/
theorem fb_fb (hw : AdmittedWidth w) (c : BitVec w) : fb (fb c) = c := by
  refine BitVec.eq_of_getLsbD_eq fun i _ => ?_
  have testBit : (fb c).getLsbD 1 = c.getLsbD 1 := by simp [getLsbD_fb c 1 hw.eight_le]
  rw [getLsbD_fb _ i hw.eight_le, testBit, getLsbD_fb c i hw.eight_le, Bool.xor_assoc, Bool.xor_self, Bool.xor_false]

theorem fin_fin (c : BitVec w) : fin (fin c) = c := by
  rw [fin, fin, BitVec.xor_assoc, BitVec.xor_self, BitVec.xor_zero]

/-! ## The bijections below 0x200 -/

theorem bijOn_of_involutive {α : Type} {f : α → α} {s : Set α} (undo : Function.Involutive f)
    (keeps : Set.MapsTo f s s) : Set.BijOn f s s :=
  Set.InvOn.bijOn ⟨fun a _ => undo a, fun a _ => undo a⟩ keeps keeps

theorem bijOn_xin (hw : AdmittedWidth w) {v : Word} (hv : v.toNat < 0x200) :
    Set.BijOn (fun c : BitVec w => xin c v) {c | c.toNat < 0x200} {c | c.toNat < 0x200} :=
  bijOn_of_involutive (fun c => xin_xin hw c v) fun _ hc => xin_lt_two_pow (n := 9) hw hc hv

theorem bijOn_fb (hw : AdmittedWidth w) : Set.BijOn (fb (w := w)) {c | c.toNat < 0x200} {c | c.toNat < 0x200} :=
  bijOn_of_involutive (fb_fb hw) fun _ hc => fb_lt_two_pow (n := 9) hw le_rfl hc

/-- The nine bits of a clean value can be read off its rotation. -/
theorem injOn_ror1 (hw : AdmittedWidth w) : Set.InjOn (ror1 (w := w)) {c | c.toNat < 0x200} := by
  intro c hc d hd same
  refine BitVec.eq_of_getLsbD_eq fun i _ => ?_
  obtain rfl | ⟨low, high⟩ | above : i = 0 ∨ (1 ≤ i ∧ i ≤ 8) ∨ 9 ≤ i := by omega
  · rw [← getLsbD_ror1_eight hw hc, same, getLsbD_ror1_eight hw hd]
  · rw [← getLsbD_ror1_pred hw c low high, same, getLsbD_ror1_pred hw d low high]
  · rw [(toNat_lt_two_pow_iff c 9).mp hc i above, (toNat_lt_two_pow_iff d 9).mp hd i above]

/-- One to one on a finite set that it keeps. -/
theorem bijOn_ror1 (hw : AdmittedWidth w) : Set.BijOn (ror1 (w := w)) {c | c.toNat < 0x200} {c | c.toNat < 0x200} :=
  have keeps : Set.MapsTo (ror1 (w := w)) {c | c.toNat < 0x200} {c | c.toNat < 0x200} := fun _ hc =>
    ror1_lt_two_pow (n := 9) hw le_rfl hc
  ((Set.toFinite _).injOn_iff_bijOn_of_mapsTo keeps).mp (injOn_ror1 hw)

/-- Settles O10: `stepElem` is the composition of the three bijections. -/
theorem involutionsAndBijections : Obligations.InvolutionsAndBijections :=
  ⟨fun _ hw => ⟨fun c => ⟨fb_fb hw c, fin_fin c⟩, bijOn_ror1 hw,
    fun _ hv => (bijOn_ror1 hw).comp ((bijOn_fb hw).comp (bijOn_xin hw hv))⟩, by decide, by decide⟩

end Sys2Proof.Machine
end

section
/-! PROOFS. The two storage widths on elements below 2^16: widening the register of 16 bits commutes with every operation
(40_datapath.md R115). -/

namespace Sys2Proof.Machine

/-! ## The operations -/

theorem getLsbD_widen (c : BitVec 16) (i : Nat) : (c.setWidth 32).getLsbD i = c.getLsbD i := by
  rw [BitVec.getLsbD_setWidth, Bool.and_eq_right_iff_imp]
  intro set
  have := BitVec.lt_of_getLsbD set
  simp only [decide_eq_true_eq]
  omega

/-- The register of 16 bits loses only the bits of the element from 16 up, and there are none. -/
theorem xin_widen (c : BitVec 16) {v : Word} (hv : v.toNat < 2 ^ 16) :
    xin (c.setWidth 32) v = (xin c v).setWidth 32 := by
  refine BitVec.eq_of_getLsbD_eq fun i hi => ?_
  rw [getLsbD_xin _ _ _ le_rfl, getLsbD_widen, getLsbD_widen, getLsbD_xin _ _ _ (by decide)]
  by_cases low : i < 16
  · simp [hi, low]
  · have high : 16 ≤ i := not_lt.mp low
    simp [low, BitVec.getLsbD_of_ge c i high, (toNat_lt_two_pow_iff v 16).mp hv i high]

theorem fb_widen (c : BitVec 16) : fb (c.setWidth 32) = (fb c).setWidth 32 := by
  refine BitVec.eq_of_getLsbD_eq fun i _ => ?_
  simp only [getLsbD_widen, getLsbD_fb _ _ (show 8 ≤ 32 by decide), getLsbD_fb _ _ (show 8 ≤ 16 by decide)]

theorem ror1_widen (c : BitVec 16) : ror1 (c.setWidth 32) = (ror1 c).setWidth 32 := by
  refine BitVec.eq_of_getLsbD_eq fun i _ => ?_
  simp only [getLsbD_widen, getLsbD_ror1 _ _ (show 9 ≤ 32 by decide), getLsbD_ror1 _ _ (show 9 ≤ 16 by decide)]

theorem fin_widen (c : BitVec 16) : fin (c.setWidth 32) = (fin c).setWidth 32 := by
  refine BitVec.eq_of_getLsbD_eq fun i _ => ?_
  simp only [getLsbD_widen, getLsbD_fin _ _ (show 9 ≤ 32 by decide), getLsbD_fin _ _ (show 9 ≤ 16 by decide)]

theorem stepElem_widen (c : BitVec 16) {v : Word} (hv : v.toNat < 2 ^ 16) :
    stepElem (c.setWidth 32) v = (stepElem c v).setWidth 32 := by
  simp only [stepElem, xin_widen c hv, fb_widen, ror1_widen]

/-! ## A run -/

theorem feed_widen (c : BitVec 16) {vs : List Word} (hvs : ∀ v ∈ vs, v.toNat < 2 ^ 16) :
    feed (c.setWidth 32) vs = (feed c vs).setWidth 32 := by
  induction vs generalizing c with
  | nil => rfl
  | cons v vs ih =>
    obtain ⟨hv, hvs⟩ := List.forall_mem_cons.mp hvs
    rw [feed_cons, feed_cons, stepElem_widen c hv, ih _ hvs]

theorem crc9_widen {buf : List Word} {n : Nat} (hvs : ∀ v ∈ buf.take n, v.toNat < 2 ^ 16) :
    (crc9 16 buf n).map (·.setWidth 32) = crc9 32 buf n := by
  rw [crc9, crc9]
  split
  case isTrue =>
    have fed : feed 0 (buf.take n) = (feed (0 : BitVec 16) (buf.take n)).setWidth 32 := feed_widen 0 hvs
    rw [Option.map_some, ← fin_widen, fed]
  case isFalse => rfl

/-- Settles O11: `crc9_widen`, and containment at `n = 16` for the register of 32 bits. -/
theorem storageWidthsAgreeBelow16Bits : Obligations.StorageWidthsAgreeBelow16Bits := by
  refine ⟨fun buf n hvs => ⟨crc9_widen hvs, fun k hk => ?contained⟩, by decide, by decide⟩
  case contained =>
    exact feed_zero_lt_two_pow (.inl rfl) (by decide) fun v hv => hvs v (List.take_subset_take_left buf hk hv)

end Sys2Proof.Machine
end

section
/-! PROOFS. The accept step by its outcome, and a block with nothing to do (41_sequencer.md R132, R138). -/

namespace Sys2Proof.Machine

/-! ## In IDLE, by what is presented -/

theorem sequencerStep_of_presented {s : State} (idle : s.phase = .idle) (valid : s.cmdValid = true) :
    sequencerStep s = acceptStep s := by
  simp [sequencerStep, idle, valid]

theorem sequencerStep_of_quiescent {s : State} (idle : s.phase = .idle) (free : s.cmdValid = false) :
    sequencerStep s = .next s := by
  simp [sequencerStep, idle, free]

theorem State.defaultTurn_of_quiescent {s : State} (idle : s.phase = .idle) (free : s.cmdValid = false) :
    s.defaultTurn = .host := by
  simp [State.defaultTurn, State.blockEnabled, State.busy, idle, free]

theorem hostStep_of_no_line {s : State} (noLine : s.program = []) : hostStep s = .next s := by
  simp [hostStep, noLine]

/-! ## The three outcomes of the accept step -/

theorem acceptStep_of_ctrl_ne {s : State} (idle : s.phase = .idle) (other : s.cmd.ctrl ≠ ctrlCompute) :
    acceptStep s = .next (s.takeCommand.raiseError .illegalCommand) := by
  rw [acceptStep, decode_of_ctrl_ne other]
  exact execIllegal_of_idle idle

theorem acceptStep_of_ctrl_eq {s : State} (compute : s.cmd.ctrl = ctrlCompute) :
    acceptStep s = execCompute s.cmd.size s.cmd.len s := by
  rw [acceptStep, decode_of_ctrl_eq compute]
  rfl

theorem execCompute_of_within {s : State} {size len : Word} (idle : s.phase = .idle)
    (within : len.toNat ≤ size.toNat) : execCompute size len s = .next (s.takeCommand.startRun len) := by
  rw [execCompute_of_idle idle, if_pos ((lenWithinSize_iff size len).mpr within)]

theorem execCompute_of_past {s : State} {size len : Word} (idle : s.phase = .idle)
    (past : size.toNat < len.toNat) : execCompute size len s = .next (s.takeCommand.raiseError .outOfBounds) := by
  rw [execCompute_of_idle idle, if_neg fun within => past.not_ge ((lenWithinSize_iff size len).mp within)]

@[simp] theorem CrcReg.toWord_load_zero (r : CrcReg) : (r.load 0).toWord = 0 := by cases r <;> rfl

/-- Settles O17: by CTRL, and for a COMPUTE by LEN against SIZE. -/
theorem acceptStepRule : Obligations.AcceptStepRule := by
  refine fun s idle => ⟨sequencerStep_of_quiescent idle, fun valid => ?presented⟩
  rw [sequencerStep_of_presented idle valid]
  by_cases compute : s.cmd.ctrl = ctrlCompute
  case neg =>
    exact ⟨_, acceptStep_of_ctrl_ne idle compute, rfl, rfl, .inl ⟨compute, rfl, rfl, rfl, rfl, rfl⟩⟩
  case pos =>
    rw [acceptStep_of_ctrl_eq compute]
    obtain within | past := le_or_gt s.cmd.len.toNat s.cmd.size.toNat
    · exact ⟨_, execCompute_of_within idle within, rfl, rfl,
        .inr (.inr ⟨compute, within, rfl, CrcReg.toWord_load_zero s.crc, rfl, rfl, rfl⟩)⟩
    · exact ⟨_, execCompute_of_past idle past, rfl, rfl,
        .inr (.inl ⟨compute, past, rfl, rfl, rfl, rfl, rfl⟩)⟩

/-- Settles O53: the sequencer has no step to take, so the turn falls to a host that has no line to do. -/
theorem idleBlockIsQuiescent : Obligations.IdleBlockIsQuiescent := by
  refine fun s idle free => ⟨sequencerStep_of_quiescent idle free, fun released noTurn noLine => ?machine⟩
  calc step s = takeTurn s.defaultTurn s := by simp [step, systemStep, released, noTurn]
    _ = hostStep s := by rw [State.defaultTurn_of_quiescent idle free, takeTurn]
    _ = .next s := hostStep_of_no_line noLine

end Sys2Proof.Machine
end

section
/-! PROOFS. The element step and the final step with their frames, the hold of a command presented during a run, and how
many steps a command takes (41_sequencer.md R134 to R139). -/

namespace Sys2Proof.Machine

/-! ## The element step and the final step -/

/-- Settles O24: the step is `State.absorb`, whose index does not wrap below LEN_L. -/
theorem elementStepRule : Obligations.ElementStepRule := by
  refine ⟨fun s running more inside => ⟨s.absorb s.bufRead, ?step, rfl, ?index, rfl, rfl, rfl⟩, by decide⟩
  case step => rw [sequencerStep_of_run running, runStep_element more inside]
  case index => exact toNat_add_one_of_lt more

/-- Only a successful accept writes CRC in IDLE. -/
theorem TurnEffect.crc_of_idle {s t : State} (h : TurnEffect s t) (idle : s.phase = .idle) (changed : t.crc ≠ s.crc) :
    s.cmdValid = true ∧ t.phase = .run ∧ t.err = .none ∧ t.crc = s.crc.load 0 := by
  cases h
  case accepted offered _ _ => exact ⟨offered, rfl, rfl, rfl⟩
  case element running _ _ => cases idle.symm.trans running
  case finished running _ => cases idle.symm.trans running
  all_goals exact absurd rfl changed

/-- Settles O25: the step is `State.finish`, and what can change CRC in IDLE is read off the effects of a turn. -/
theorem finalStepRule : Obligations.FinalStepRule := by
  refine ⟨fun s running atEnd => ⟨s.finish, ?step, rfl, rfl, rfl, rfl, State.resultWord_of_done rfl, rfl⟩,
    fun s t idle released stepped changed => ?kept, by decide⟩
  case step => rw [sequencerStep_of_run running, runStep_final atEnd]
  case kept =>
    obtain ⟨asserted, -⟩ | ⟨-, ts, effect⟩ := step_next_cases stepped
    · cases released.symm.trans asserted
    · exact effect.crc_of_idle idle changed

/-! ## A command presented during a run -/

theorem exec_of_run {s : State} (running : s.phase = .run) (i : Instr) : exec i s = .next s := by
  cases i
  simp [exec, execCompute, State.cmdReady, running]

theorem runStep_refused {s : State} (more : s.idx.toNat < s.lenL.toNat) (past : ¬s.idx.toNat < s.extent) :
    runStep s = .refused .bufferReadPastEnd := by
  simp [runStep, elementStep, more, past]

theorem runStep_fault {s : State} (noMore : ¬s.idx.toNat < s.lenL.toNat) (notAtEnd : s.idx ≠ s.lenL) :
    runStep s = .fault .indexPastLength := by
  simp [runStep, noMore, notAtEnd]

/-- No condition and no update of a run's step names the command port. -/
theorem runStep_with_command (s : State) (b : Bool) (c : CommandWords) :
    runStep { s with cmdValid := b, cmd := c } = mapNext (fun t => { t with cmdValid := b, cmd := c }) (runStep s) := by
  by_cases more : s.idx.toNat < s.lenL.toNat
  · by_cases inside : s.idx.toNat < s.extent
    · rw [runStep_element (s := s) more inside]
      exact runStep_element more inside
    · rw [runStep_refused (s := s) more inside]
      exact runStep_refused more inside
  · by_cases atEnd : s.idx = s.lenL
    · rw [runStep_final (s := s) atEnd]
      exact runStep_final atEnd
    · rw [runStep_fault (s := s) more atEnd]
      exact runStep_fault more atEnd

theorem runStep_keeps_command {s t : State} (h : runStep s = .next t) : t.cmdValid = s.cmdValid ∧ t.cmd = s.cmd := by
  obtain ⟨-, rfl⟩ | ⟨-, rfl⟩ := runStep_next_cases h <;> exact ⟨rfl, rfl⟩

/-- Settles O20: in RUN the sequencer's step is `runStep`, which commutes with any change of the command port. -/
theorem commandIsHeldDuringRun : Obligations.CommandIsHeldDuringRun := by
  intro s running
  rw [sequencerStep_of_run running]
  refine ⟨exec_of_run running, fun b c => ?port, fun t => runStep_keeps_command,
    fun t _ => sequencerStep_of_presented⟩
  case port =>
    rw [← runStep_with_command]
    exact sequencerStep_of_run running

/-! ## A command that ends without an element step -/

theorem State.Offers.step_eq_raiseError {s : State} {size len : Word} (h : s.Offers size len)
    (past : size.toNat < len.toNat) : step s = .next (s.takeCommand.raiseError .outOfBounds) := by
  rw [h.step_eq_execCompute, execCompute_of_past h.idle past]

theorem step_eq_finish {s : State} (undisturbed : s.Undisturbed) (running : s.phase = .run) (atEnd : s.idx = s.lenL) :
    step s = .next s.finish := by
  rw [step_of_undisturbed undisturbed (State.blockEnabled_of_run running), sequencerStep_of_run running,
    runStep_final atEnd]

theorem CrcReg.toWord_finish_load_zero (r : CrcReg) : (r.load 0).finish.toWord = 0x1AF := by cases r <;> rfl

/-- Settles O31: the accept leaves `IDX = LEN_L = 0`, which enables the final step, with CRC still 0. -/
theorem lengthZeroSkipsToFinal : Obligations.LengthZeroSkipsToFinal := by
  intro s size offers
  refine ⟨_, _, offers.step_eq_startRun (Nat.zero_le _), rfl, rfl,
    step_eq_finish (offers.undisturbed.startRun 0) rfl rfl, rfl, rfl, rfl, ?result⟩
  case result => exact (State.resultWord_of_done rfl).trans (CrcReg.toWord_finish_load_zero s.crc)

/-! ## The number of steps -/

/-- After the accept step and `j ≤ LEN` element steps the run still goes on. -/
theorem State.Offers.running_after {s : State} {size len : Word} (h : s.Offers size len)
    (within : len.toNat ≤ size.toNat) (held : len.toNat ≤ s.extent) {j : Nat} (hj : j ≤ len.toNat) :
    ∃ u, stepN (j + 1) s = .next u ∧ u.phase = .run ∧ u.done = false := by
  have reached : (s.takeCommand.startRun len).idx.toNat + j ≤ (s.takeCommand.startRun len).lenL.toNat := by
    simpa using hj
  obtain ⟨u, vs, -, fed, elements⟩ := stepN_elements (h.undisturbed.startRun len) rfl held j reached
  exact ⟨u, (stepN_succ_of_next (h.step_eq_startRun within)).trans (elements 0), fed.running, fed.done⟩

/-- Settles O28: `running_after` for every step but the last, `stepN_to_finish` for the last, and for a failed command
the accept step alone. -/
theorem computeStepCount : Obligations.ComputeStepCount := by
  refine fun s size len offers => ⟨fun within held => ⟨fun k first last => ?during, ?ended⟩, fun past => ?failed⟩
  case during =>
    obtain ⟨j, rfl⟩ := Nat.exists_eq_add_of_le' first
    exact offers.running_after within held (Nat.le_of_succ_le_succ last)
  case ended =>
    obtain ⟨t, -, -, -, steps⟩ := offers.stepN_to_finish within held
    exact ⟨t.finish, steps, rfl, rfl⟩
  case failed => exact ⟨_, stepN_succ_of_next (offers.step_eq_raiseError past), offers.idle, rfl, rfl⟩

end Sys2Proof.Machine
end

section
/-! PROOFS. Commands that end with an error, and the error code that no step produces
(60_exceptions.md R161 to R167). -/

namespace Sys2Proof.Machine

/-! ## A failed accept -/

/-- What a failed accept writes, and that it writes nothing else (60_exceptions.md R163; notes/assumptions/11.md). -/
theorem State.takeCommand_raiseError (s : State) (code : ErrCode) :
    s.takeCommand.raiseError code = { s with err := code, done := false, cmdValid := false } := rfl

/-- Settles O15: the failed branch of `execCompute`, whose state `State.takeCommand_raiseError` writes out. -/
theorem computeOutOfBounds : Obligations.ComputeOutOfBounds := by
  refine fun s size len idle past => ⟨?effect, rfl⟩
  calc exec (.compute size len) s = execCompute size len s := rfl
    _ = .next (s.takeCommand.raiseError .outOfBounds) := execCompute_of_past idle past
    _ = _ := by rw [State.takeCommand_raiseError]

/-- Settles O16: a CTRL other than 1 decodes to no operation, and its accept fails whatever SIZE and LEN are. -/
theorem illegalCommandEndsAtOnce : Obligations.IllegalCommandEndsAtOnce := by
  refine fun s idle valid other => ⟨?effect, rfl⟩
  calc sequencerStep s = acceptStep s := sequencerStep_of_presented idle valid
    _ = .next (s.takeCommand.raiseError .illegalCommand) := acceptStep_of_ctrl_ne idle other
    _ = _ := by rw [State.takeCommand_raiseError]

/-- The accept step of an idle block ends the command with an error or starts the run. -/
theorem acceptStep_fails_or_starts {s : State} (idle : s.phase = .idle) :
    (∃ code, acceptStep s = .next (s.takeCommand.raiseError code)) ∨
      acceptStep s = .next (s.takeCommand.startRun s.cmd.len) := by
  by_cases compute : s.cmd.ctrl = ctrlCompute
  case neg => exact .inl ⟨_, acceptStep_of_ctrl_ne idle compute⟩
  case pos =>
    rw [acceptStep_of_ctrl_eq compute]
    obtain within | past := le_or_gt s.cmd.len.toNat s.cmd.size.toNat
    · exact .inr (execCompute_of_within idle within)
    · exact .inl ⟨_, execCompute_of_past idle past⟩

/-- Settles O18: an accept that starts the run leaves ERR = NONE, and any other is a `State.raiseError`. -/
theorem errorsArePrecise : Obligations.ErrorsArePrecise := by
  intro s t idle valid stepped failed
  rw [sequencerStep_of_presented idle valid] at stepped
  obtain ⟨code, fails⟩ | starts := acceptStep_fails_or_starts idle
  · obtain rfl := Outcome.next_inj.mp (fails.symm.trans stepped)
    exact s.takeCommand_raiseError code
  · obtain rfl := Outcome.next_inj.mp (starts.symm.trans stepped)
    exact absurd (State.startRun_err _ _) failed

/-! ## The code that is never produced -/

/-- The codes that a turn can write to ERR, each by one outcome of the accept step. -/
theorem TurnEffect.err_cases {s t : State} (h : TurnEffect s t) :
    t.err = s.err ∨ t.err = .none ∨ t.err = .outOfBounds ∨ t.err = .illegalCommand := by
  cases h
  case accepted => exact .inr (.inl rfl)
  case outOfBounds => exact .inr (.inr (.inl rfl))
  case illegal => exact .inr (.inr (.inr rfl))
  all_goals exact .inl rfl

/-- Settles O19: reset writes NONE, and `TurnEffect.err_cases` lists what a turn leaves in ERR. -/
theorem invalidArgumentNeverProduced : Obligations.InvalidArgumentNeverProduced := by
  refine ⟨by decide, fun s t before stepped => ?step⟩
  obtain ⟨-, rfl⟩ | ⟨-, ts, effect⟩ := step_next_cases stepped
  · simp
  · obtain kept | written | written | written := effect.err_cases
    · rwa [kept]
    all_goals simp [written]

end Sys2Proof.Machine
end

section
/-! PROOFS. The observer records of a run that nothing disturbs, and the values it reads for an honest host
(20_memory.md R59; 60_exceptions.md R176, R177). -/

namespace Sys2Proof.Machine

/-! ## The element steps of a run that an accept has started -/

/-- The records of a run from element 0 are the `ELEM` records of the values it read. -/
theorem State.Fed.obsLog_of_startRun {s t : State} {len : Word} {vs : List Word}
    (fed : (s.takeCommand.startRun len).Fed t vs) :
    t.obsLog = if s.obsEn then s.obsLog ++ s.elemRecords vs else s.obsLog := by
  simpa [State.elemRecords] using fed.records

/-- No write of an honest host races the run. -/
theorem State.Honest.racedAtAccept_eq_nil {s : State} {size len : Word} (honest : s.Honest size len) :
    s.racedAtAccept len = [] := by
  refine List.filter_eq_nil_iff.mpr fun i pending => ?_
  obtain ⟨write, issued, rfl⟩ := List.mem_map.mp pending
  simpa using honest.complete write issued

/-- An honest host's run reads what its buffer held at the accept. -/
theorem State.Honest.fed_values {s t : State} {size len : Word} {vs : List Word} (honest : s.Honest size len)
    (fed : (s.takeCommand.startRun len).Fed t vs) : vs = s.elemsFrom 0 vs.length :=
  fed.values honest.racedAtAccept_eq_nil

/-! ## The final step -/

/-- The `FINAL` record shows LEN_L, 0 and the RESULT of the state it leads to. -/
theorem State.finalRecord_eq_resultWord_finish (s : State) :
    s.finalRecord = ⟨.final, s.lenL, 0, s.finish.resultWord⟩ := by
  rw [State.resultWord_of_done (State.finish_done s)]
  rfl

/-- What a whole run adds to the records. -/
theorem State.Fed.obsLog_finish {s t : State} {len : Word} {vs : List Word}
    (fed : (s.takeCommand.startRun len).Fed t vs) :
    t.finish.obsLog =
      if s.obsEn then s.obsLog ++ s.elemRecords vs ++ [⟨.final, len, 0, t.finish.resultWord⟩] else s.obsLog := by
  have sameObs : t.obsEn = s.obsEn := fed.obsEn
  have latched : t.lenL = len := fed.lenL
  rw [State.finish_obsLog, fed.obsLog_of_startRun, State.finalRecord_eq_resultWord_finish, sameObs, latched]
  split <;> rfl

/-- Settles O30: `stepN_to_finish` takes the offered command to its end, and `State.Fed` says what its `LEN` element
steps leave there. -/
theorem runEmitsRecordsInOrder : Obligations.RunEmitsRecordsInOrder := by
  intro s size len offers within held
  obtain ⟨t, vs, hlen, fed, steps⟩ := offers.stepN_to_finish within held
  refine ⟨t.finish, vs, steps, hlen, rfl, ?register, fun present => ?records, fun absent => ?noRecord,
    fun honest => ?values⟩
  case register => exact congrArg CrcReg.finish fed.crc
  case records => rw [fed.obsLog_finish, if_pos present]
  case noRecord => rw [fed.obsLog_finish, if_neg (Bool.eq_false_iff.mp absent)]
  case values => rw [← hlen]; exact honest.fed_values fed

end Sys2Proof.Machine
end

section
/-! PROOFS. Reset from any state, and the block that waits for a command after it
(70_reset_and_hazards.md R190, R192). -/

namespace Sys2Proof.Machine

/-- An asserted `rst` goes before every turn (70_reset_and_hazards.md R190). -/
theorem step_of_rst {s : State} (asserted : s.rst = true) : step s = .next s.resetBlock := if_pos asserted

/-- STATUS of an idle block that has neither a result nor an error to show (10_state.md R30). -/
theorem State.statusWord_eq_zero {s : State} (idle : s.phase = .idle) (noResult : s.done = false)
    (noError : s.err = .none) : s.statusWord = 0 := by
  have notBusy : s.busy = false := by simp [State.busy, idle]
  rw [State.statusWord, notBusy, noResult, noError]
  rfl

@[simp] theorem State.resetBlock_statusWord (s : State) : s.resetBlock.statusWord = 0 :=
  State.statusWord_eq_zero s.resetBlock_phase s.resetBlock_done s.resetBlock_err

/-- Settles O51: the step is `State.resetBlock`, which writes the block's registers and leaves the reads, the records and
the command port. -/
theorem resetFromAnyState : Obligations.ResetFromAnyState := fun s asserted =>
  ⟨s.resetBlock, step_of_rst asserted, s.resetBlock_phase, s.resetBlock_done, s.resetBlock_err,
    s.resetBlock_statusWord, s.resetBlock_reads, s.resetBlock_obsLog, s.resetBlock_cmdValid, s.resetBlock_cmd⟩

/-- Settles O52: the reset state is idle with nothing to show and no command presented, so the sequencer waits. -/
theorem resetWaitsForCommand : Obligations.ResetWaitsForCommand := by
  have idle : State.reset.phase = .idle := rfl
  have noCommand : State.reset.cmdValid = false := rfl
  refine ⟨idle, State.statusWord_eq_zero idle rfl rfl, ?ready, sequencerStep_of_quiescent idle noCommand⟩
  case ready => rw [State.cmdReady, idle]; rfl

end Sys2Proof.Machine
end

section
/-! PROOFS. The 96 bits of a command and its three words, and what a command must show to name an operation
(30_encoding.md R72 to R75, R77). -/

namespace Sys2Proof

/-! ## The three words in their 96 bits -/

theorem CommandWords.ofBits_toBits (c : CommandWords) : .ofBits c.toBits = c := by
  obtain ⟨ctrl, size, len⟩ := c
  have atSize : (len ++ size ++ ctrl).extractLsb' 32 32 = size :=
    (BitVec.extractLsb'_append_eq_of_le le_rfl).trans BitVec.extractLsb'_append_eq_right
  have atLen : (len ++ size ++ ctrl).extractLsb' 64 32 = len :=
    (BitVec.extractLsb'_append_eq_of_le (by decide)).trans BitVec.extractLsb'_append_eq_left
  simp only [ofBits, toBits, mk.injEq]
  exact ⟨BitVec.extractLsb'_append_eq_right, atSize, atLen⟩

/-- No bit of the 96 is outside the three words. -/
theorem CommandWords.toBits_ofBits (b : BitVec 96) : (ofBits b).toBits = b := by
  have upper : b.extractLsb' 64 32 ++ b.extractLsb' 32 32 = b.extractLsb' 32 64 :=
    BitVec.extractLsb'_append_extractLsb'_eq_extractLsb' rfl
  have whole : b.extractLsb' 32 64 ++ b.extractLsb' 0 32 = b.extractLsb' 0 96 :=
    BitVec.extractLsb'_append_extractLsb'_eq_extractLsb' rfl
  calc (ofBits b).toBits = b.extractLsb' 64 32 ++ b.extractLsb' 32 32 ++ b.extractLsb' 0 32 := rfl
    _ = b := by rw [upper, whole, BitVec.extractLsb'_eq_self]

/-- Settles O3: the words and their 96 bits determine each other, and so do a legal command's words and its instruction. -/
theorem decodeEncodeAgree : Obligations.DecodeEncodeAgree := by
  refine ⟨fun i _ => ?encoded, fun b i decoded => ?decoded⟩
  case encoded =>
    rw [CommandWords.ofBits_toBits]
    cases i with
    | compute size len => exact Machine.decode_encode_compute size len
  case decoded =>
    cases i with
    | compute size len => rw [← Machine.decode_eq_instr decoded, CommandWords.toBits_ofBits]

/-! ## The form of CTRL -/

theorem exists_decode_eq_instr_iff (c : CommandWords) : (∃ i, decode c = .instr i) ↔ c.ctrl = ctrlCompute := by
  by_cases compute : c.ctrl = ctrlCompute
  case pos => simp [compute, decode_of_ctrl_eq]
  case neg => simp [compute, decode_of_ctrl_ne]

theorem eq_ctrlCompute_iff (ctrl : Word) :
    ctrl = ctrlCompute ↔ ctrl.extractLsb' 0 4 = 0x1#4 ∧ ctrl.extractLsb' 4 28 = 0#28 := by
  constructor
  case mp =>
    rintro rfl
    decide
  case mpr =>
    rintro ⟨op, rsvd⟩
    have whole : ctrl.extractLsb' 4 28 ++ ctrl.extractLsb' 0 4 = ctrl.extractLsb' 0 32 :=
      BitVec.extractLsb'_append_extractLsb'_eq_extractLsb' rfl
    calc ctrl = ctrl.extractLsb' 0 32 := BitVec.extractLsb'_eq_self.symm
      _ = ctrlCompute := by rw [← whole, op, rsvd]; rfl

theorem CommandWords.wellFormed_iff (c : CommandWords) :
    c.wellFormed = true ↔ c.ctrl.extractLsb' 0 4 = 0x1#4 ∧ c.ctrl.extractLsb' 4 28 = 0#28 := by
  simp [wellFormed, opNamed, rsvdClear, opField, rsvdField]

/-- Settles O2: both sides say that CTRL is the one word of the opcode table. -/
theorem computeNeedsOpOneAndClearRsvd : Obligations.ComputeNeedsOpOneAndClearRsvd := by
  intro c
  rw [exists_decode_eq_instr_iff, c.wellFormed_iff, ← eq_ctrlCompute_iff]
  exact ⟨Iff.rfl, Iff.rfl⟩

/-- Settles O4: the decoder evaluated on the eight words. -/
theorem sampleCommandsDecode : Obligations.SampleCommandsDecode := by
  unfold Obligations.SampleCommandsDecode
  decide

end Sys2Proof
end

section
/-! PROOFS. What an undisturbed run leaves in CRC and RESULT when no host write races it (20_memory.md R59;
40_datapath.md R108, R109; 41_sequencer.md R131 to R135). -/

namespace Sys2Proof.Machine

/-! ## From any point of a run -/

/-- Settles O26: `stepN_to_finish` takes the run to its end, and without a race the values read are the buffer's. -/
theorem runEndsFromAnyPoint : Obligations.RunEndsFromAnyPoint := by
  intro s undisturbed running idxInside inside raceFree
  obtain ⟨t, vs, hlen, fed, steps⟩ := stepN_to_finish undisturbed running idxInside inside
  refine ⟨t.finish, steps, rfl, rfl, fed.err, ?register, fed.mem⟩
  case register => rw [State.finish_crc, fed.crc, ← hlen, ← fed.values raceFree]

/-! ## From the offer of a command -/

/-- How an honest offer ends. -/
theorem State.Offers.stepN_of_honest {s : State} {size len : Word} (offers : s.Offers size len)
    (honest : s.Honest size len) :
    ∃ t, stepN (len.toNat + 2) s = .next t ∧ t.phase = .idle ∧ t.done = true ∧ t.err = .none ∧
      t.crc = ((s.crc.load 0).feed (s.elemsFrom 0 len.toNat)).finish := by
  obtain ⟨t, vs, hlen, fed, steps⟩ := offers.stepN_to_finish honest.within honest.held
  refine ⟨t.finish, steps, rfl, rfl, fed.err, ?register⟩
  case register =>
    rw [← hlen, ← honest.fed_values fed]
    exact congrArg CrcReg.finish fed.crc

/-- STATUS of an idle block that shows a result (10_state.md R30). -/
theorem State.statusWord_eq_two {s : State} (idle : s.phase = .idle) (done : s.done = true) (noError : s.err = .none) :
    s.statusWord = 2 := by
  have notBusy : s.busy = false := by simp [State.busy, idle]
  rw [State.statusWord, notBusy, done, noError]
  rfl

/-- CRC9 of a whole list is what the machine's register makes of it from 0 (40_datapath.md R109). -/
theorem State.crc9Word_eq (s : State) {vs : List Word} {n : Nat} (whole : vs.length = n) :
    s.crc9Word vs n = some ((s.crc.load 0).feed vs).finish.toWord := by
  have inside : n ≤ vs.length := whole.ge
  have all : vs.take n = vs := List.take_of_length_le whole.le
  unfold State.crc9Word
  split
  case h_1 _ register => simp [crc9, inside, all, register, CrcReg.load, CrcReg.finish, CrcReg.toWord]
  case h_2 _ register => simp [crc9, inside, all, register, CrcReg.load, CrcReg.finish, CrcReg.toWord]

/-- Settles O27: the register that `stepN_of_honest` leaves is CRC9 of the elements, and RESULT shows it. -/
theorem computeRunsToCrc9 : Obligations.ComputeRunsToCrc9 := by
  intro s size len offers honest
  obtain ⟨t, steps, idle, done, noError, register⟩ := offers.stepN_of_honest honest
  refine ⟨t, steps, idle, done, noError, State.statusWord_eq_two idle done noError, ?result⟩
  case result => rw [s.crc9Word_eq (s.length_elemsFrom 0 _), State.resultWord_of_done done, register]

/-! ## Two runs over the same elements -/

/-- Of the register before, only its width is left. -/
theorem CrcReg.load_eq_of_width {r r' : CrcReg} (same : r.width = r'.width) (v : Word) : r.load v = r'.load v := by
  cases r <;> cases r'
  case w32.w32 => rfl
  case w16.w16 => rfl
  all_goals cases same

theorem State.elemsFrom_zero_congr {s t : State} {n : Nat} (same : ∀ i, i < n → s.elemAt i = t.elemAt i) :
    s.elemsFrom 0 n = t.elemsFrom 0 n := by
  refine List.map_congr_left fun i member => same i ?_
  simpa using member

/-- Settles O34: the register that `stepN_of_honest` leaves names only the width and the elements. -/
theorem resultDependsOnElementsAlone : Obligations.ResultDependsOnElementsAlone := by
  intro s s' size size' len offers offers' honest honest' sameWidth sameElems
  obtain ⟨t, steps, -, done, -, register⟩ := offers.stepN_of_honest honest
  obtain ⟨t', steps', -, done', -, register'⟩ := offers'.stepN_of_honest honest'
  have sameCrc : t.crc = t'.crc := by
    rw [register, register', CrcReg.load_eq_of_width sameWidth, State.elemsFrom_zero_congr sameElems]
  refine ⟨t, t', steps, steps', done, done', sameCrc, ?result⟩
  case result => rw [State.resultWord_of_done done, State.resultWord_of_done done', sameCrc]

/-! ## The accept of an honest offer -/

theorem State.getElem?_elemsFrom_zero (s : State) {i n : Nat} (inside : i < n) :
    (s.elemsFrom 0 n)[i]? = some (s.elemAt i) := by
  simp [State.elemsFrom, inside]

/-- A run that no write races begins by following the buffer. -/
theorem State.Honest.startRun_follows {s : State} {size len : Word} (honest : s.Honest size len) :
    (s.takeCommand.startRun len).Follows (s.elemsFrom 0 len.toNat) where
  running := rfl
  lengthLatched := s.length_elemsFrom 0 _
  idxInside := Nat.zero_le _
  fed := (CrcReg.load_load s.crc 0 0).symm
  ahead i _ inside := s.getElem?_elemsFrom_zero (by simpa using inside)
  settled write issued _ := by simpa using honest.complete write issued
  raceFree := honest.racedAtAccept_eq_nil

/-- Settles O32: the accept of an honest offer is `State.startRun`. -/
theorem acceptedRunFollowsBuffer : Obligations.AcceptedRunFollowsBuffer := by
  intro s t size len idle honest executed
  obtain rfl := Outcome.next_inj.mp ((execCompute_of_within idle honest.within).symm.trans executed)
  exact honest.startRun_follows

end Sys2Proof.Machine
end

section
/-! PROOFS. The host's writes to its buffer: when they are answered, what each element holds after them, and which reads
they race (20_memory.md R59, R60). -/

namespace Sys2Proof.Machine

/-! ## What an element holds -/

@[simp] theorem State.elemAt_putElem_same (s : State) (i v : Word) : (s.putElem i v).elemAt i.toNat = v := by
  simp [State.elemAt, Memory.read_write_same]

theorem State.elemAt_putElem_other (s : State) {i : Nat} {j v : Word} (other : i ≠ j.toNat) :
    (s.putElem j v).elemAt i = s.elemAt i :=
  State.elemAt_congr (Memory.read_write_other s.mem v other)

/-- Completing the writes under way leaves the elements that none of them names. -/
theorem State.elemAt_landAll_other (s : State) {i : Nat} (settled : ∀ p ∈ s.outstanding, p.1.toNat ≠ i) :
    s.landAll.elemAt i = s.elemAt i :=
  State.elemAt_congr (Memory.read_writes_other s.mem settled)

/-! ## The three moves -/

theorem hostWrite_eq_next_iff {i v : Word} {s t : State} :
    hostWrite i v s = .next t ↔ i.toNat < s.extent ∧ (s.noteWrite i).landAll.putElem i v = t := by
  unfold hostWrite
  split
  case isTrue inside => simp [inside]
  case isFalse past => simp [past]

theorem issueWrite_eq_next_iff {i v : Word} {s t : State} :
    issueWrite i v s = .next t ↔
      i.toNat < s.extent ∧ { s.noteWrite i with outstanding := s.outstanding ++ [(i, v)] } = t := by
  unfold issueWrite
  split
  case isTrue inside => simp [inside]
  case isFalse past => simp [past]

theorem landOldest_of_none {s : State} (none : s.outstanding = []) : landOldest s = .next s := by
  simp [landOldest, none]

theorem landOldest_of_oldest {s : State} {i v : Word} {rest : List (Word × Word)}
    (oldest : s.outstanding = (i, v) :: rest) : landOldest s = .next ({ s with outstanding := rest }.putElem i v) := by
  simp [landOldest, oldest]

/-- Settles O46: `hostWrite_eq_next_iff` on the state whose program has lost the line, and the laws of its updates. -/
theorem bufferWriteIsSeen : Obligations.BufferWriteIsSeen := by
  refine fun s i v rest =>
    ⟨⟨fun inside => ⟨_, hostWrite_eq_next_iff.mpr ⟨inside, rfl⟩⟩, ?inside⟩, fun t written => ?effect⟩
  case inside =>
    rintro ⟨t, written⟩
    exact (hostWrite_eq_next_iff.mp written).1
  case effect =>
    obtain ⟨-, rfl⟩ := hostWrite_eq_next_iff.mp written
    refine ⟨State.elemAt_putElem_same _ i v, rfl, fun j other settled => ?others, rfl, rfl⟩
    case others => exact (State.elemAt_putElem_other _ other).trans (State.elemAt_landAll_other _ settled)

/-- Settles O57: the issue of a write and the completion of the oldest one, by their equations. -/
theorem issuedWriteLandsLater : Obligations.IssuedWriteLandsLater := by
  refine fun s i v => ⟨⟨fun inside => ⟨_, issueWrite_eq_next_iff.mpr ⟨inside, rfl⟩⟩, ?inside⟩, fun t issued => ?issued,
    fun rest oldest => ⟨_, landOldest_of_oldest oldest, ?landed⟩, landOldest_of_none⟩
  case inside =>
    rintro ⟨t, issued⟩
    exact (issueWrite_eq_next_iff.mp issued).1
  case issued =>
    obtain ⟨-, rfl⟩ := issueWrite_eq_next_iff.mp issued
    exact ⟨fun _ => rfl, rfl⟩
  case landed => exact ⟨State.elemAt_putElem_same _ i v, fun j => State.elemAt_putElem_other _, rfl⟩

/-! ## Races -/

theorem State.bufRead_of_raced {s : State} (raced : s.idx ∈ s.raced) : s.bufRead = Config.racedElem s.draws :=
  if_pos raced

theorem State.bufRead_of_not_raced {s : State} (settled : s.idx ∉ s.raced) : s.bufRead = s.elemAt s.idx.toNat :=
  if_neg settled

/-- A write races a read that is still to come. -/
theorem State.mem_raced_noteWrite {s : State} {i : Word} (running : s.phase = .run) (ahead : s.idx.toNat ≤ i.toNat)
    (inside : i.toNat < s.lenL.toNat) : i ∈ (s.noteWrite i).raced := by
  simp [running, ahead, inside]

/-- A write that no read awaits races none. -/
theorem State.raced_noteWrite_of_not_ahead {s : State} {i : Word}
    (notAhead : s.phase = .idle ∨ i.toNat < s.idx.toNat ∨ s.lenL.toNat ≤ i.toNat) :
    (s.noteWrite i).raced = s.raced := by
  rw [State.noteWrite_raced, if_neg]
  rintro ⟨running, ahead, inside⟩
  obtain idle | passed | past := notAhead
  · cases idle.symm.trans running
  · omega
  · omega

/-- The mark of a write does not depend on whether the write completes. -/
theorem raced_of_write {s t : State} {i v : Word} (written : hostWrite i v s = .next t ∨ issueWrite i v s = .next t) :
    t.raced = (s.noteWrite i).raced := by
  obtain complete | issued := written
  · obtain ⟨-, rfl⟩ := hostWrite_eq_next_iff.mp complete
    rfl
  · obtain ⟨-, rfl⟩ := issueWrite_eq_next_iff.mp issued
    rfl

theorem State.mem_racedAtAccept_iff (s : State) (len i : Word) :
    i ∈ s.racedAtAccept len ↔ i.toNat < len.toNat ∧ ∃ v, (i, v) ∈ s.outstanding := by
  simp [State.racedAtAccept, and_comm]

/-- Settles O47: a read, the marks of a write, and the marks of an accept. -/
theorem racedReadIsFree : Obligations.RacedReadIsFree := by
  refine ⟨fun _ => State.bufRead_of_raced, fun _ => State.bufRead_of_not_raced, fun s t i v written => ?write,
    fun s t size len idle within executed => ?accept⟩
  case write =>
    rw [raced_of_write written]
    exact ⟨State.mem_raced_noteWrite, State.raced_noteWrite_of_not_ahead⟩
  case accept =>
    obtain rfl := Outcome.next_inj.mp ((execCompute_of_within idle within).symm.trans executed)
    exact s.mem_racedAtAccept_iff len

end Sys2Proof.Machine
end

section
/-! PROOFS. A run between whose steps the other agents move in any order: without a race it follows its elements
(20_memory.md R59; 70_reset_and_hazards.md R200). -/

namespace Sys2Proof.Machine

variable {s : State} {vs : List Word}

/-! ## The host's writes beside a run -/

/-- A host write that races nothing names no element that the run has still to read. -/
theorem State.past_of_raced_noteWrite_eq_nil {i : Word} (running : s.phase = .run)
    (raceFree : (s.noteWrite i).raced = []) (ahead : s.idx.toNat ≤ i.toNat) : s.lenL.toNat ≤ i.toNat := by
  by_contra inside
  have marked := State.mem_raced_noteWrite running ahead (not_le.mp inside)
  rw [raceFree] at marked
  cases marked

theorem State.Follows.noteWrite {i : Word} (follows : s.Follows vs) (raceFree : (s.noteWrite i).raced = []) :
    (s.noteWrite i).Follows vs :=
  ⟨follows.running, follows.lengthLatched, follows.idxInside, follows.fed, follows.ahead, follows.settled, raceFree⟩

/-- No write under way names an element that the run has still to read. -/
theorem State.Follows.landAll (follows : s.Follows vs) : s.landAll.Follows vs := by
  refine ⟨follows.running, follows.lengthLatched, follows.idxInside, follows.fed, fun i ahead inside => ?ahead,
    fun _ issued => absurd issued List.not_mem_nil, follows.raceFree⟩
  case ahead =>
    have settled : ∀ p ∈ s.outstanding, p.1.toNat ≠ i := by
      rintro p issued rfl
      exact absurd (follows.settled p issued ahead) (not_le.mpr inside)
    rw [State.elemAt_landAll_other s settled]
    exact follows.ahead i ahead inside

theorem State.Follows.putElem {i : Word} (follows : s.Follows vs) (v : Word)
    (past : s.idx.toNat ≤ i.toNat → vs.length ≤ i.toNat) : (s.putElem i v).Follows vs := by
  refine ⟨follows.running, follows.lengthLatched, follows.idxInside, follows.fed, fun j ahead inside => ?ahead,
    follows.settled, follows.raceFree⟩
  case ahead =>
    have other : j ≠ i.toNat := by
      rintro rfl
      exact absurd (past ahead) (not_le.mpr inside)
    rw [State.elemAt_putElem_other s other]
    exact follows.ahead j ahead inside

/-! ## The run's own steps -/

theorem CrcReg.feed_concat (r : CrcReg) (us : List Word) (v : Word) : r.feed (us ++ [v]) = (r.feed us).absorb v :=
  CrcReg.feed_append r us [v]

theorem State.Follows.absorb (follows : s.Follows vs) (more : s.idx.toNat < s.lenL.toNat) :
    (s.absorb s.bufRead).Follows vs := by
  have inside : s.idx.toNat < vs.length := follows.lengthLatched ▸ more
  have idxNext : (s.absorb s.bufRead).idx.toNat = s.idx.toNat + 1 := toNat_add_one_of_lt more
  have read : vs[s.idx.toNat]? = some s.bufRead := by
    rw [State.bufRead_of_not_raced (by simp [follows.raceFree])]
    exact follows.ahead _ le_rfl inside
  refine ⟨follows.running, follows.lengthLatched, by omega, ?fed, fun i ahead => follows.ahead i (by omega),
    fun p issued ahead => follows.settled p issued (by omega), follows.raceFree⟩
  case fed =>
    calc s.crc.absorb s.bufRead
        = ((s.crc.load 0).feed (vs.take s.idx.toNat)).absorb s.bufRead := congrArg (·.absorb s.bufRead) follows.fed
      _ = (s.crc.load 0).feed (vs.take s.idx.toNat ++ [s.bufRead]) := (CrcReg.feed_concat ..).symm
      _ = (s.crc.load 0).feed (vs.take (s.idx.toNat + 1)) := by rw [List.take_add_one, read, Option.toList_some]
      _ = _ := by rw [idxNext, State.absorb_crc, CrcReg.load_absorb]

/-- At its end a run has fed all of its elements. -/
theorem State.Follows.crc_of_atEnd (follows : s.Follows vs) (atEnd : s.idx = s.lenL) :
    s.crc = (s.crc.load 0).feed vs := by
  have whole : vs.take s.idx.toNat = vs := List.take_of_length_le (by rw [atEnd, follows.lengthLatched])
  calc s.crc = (s.crc.load 0).feed (vs.take s.idx.toNat) := follows.fed
    _ = (s.crc.load 0).feed vs := by rw [whole]

/-! ## Any turn -/

/-- A turn of any agent leaves a run that no write races on its elements, or ends it. -/
theorem TurnEffect.follows_or_ends {t : State} (h : TurnEffect s t) (follows : s.Follows vs) (raceFree : t.raced = []) :
    t.Follows vs ∨
      (t.phase = .idle ∧ t.done = true ∧ t.err = s.err ∧ t.crc = ((s.crc.load 0).feed vs).finish) := by
  have ⟨running, lengthLatched, idxInside, fed, ahead, settled, noRace⟩ := follows
  cases h
  case accepted idle _ _ _ => cases idle.symm.trans running
  case outOfBounds idle _ _ _ => cases idle.symm.trans running
  case illegal idle _ _ => cases idle.symm.trans running
  case element more _ => exact .inl (follows.absorb more)
  case finished atEnd =>
    exact .inr ⟨rfl, rfl, rfl, congrArg CrcReg.finish (follows.crc_of_atEnd atEnd)⟩
  case wrote rest i v _ =>
    have lineDone : ({ s with program := rest } : State).Follows vs :=
      ⟨running, lengthLatched, idxInside, fed, ahead, settled, noRace⟩
    refine .inl ((lineDone.noteWrite raceFree).landAll.putElem v fun ahead => ?_)
    exact lengthLatched ▸ State.past_of_raced_noteWrite_eq_nil lineDone.running raceFree ahead
  case issued i v _ =>
    refine .inl ⟨running, lengthLatched, idxInside, fed, ahead, fun p pending ahead => ?_, raceFree⟩
    obtain earlier | new := List.mem_append.mp pending
    · exact settled p earlier ahead
    · obtain rfl := List.mem_singleton.mp new
      exact lengthLatched ▸ State.past_of_raced_noteWrite_eq_nil running raceFree ahead
  case landed i v rest oldest =>
    have others : ({ s with outstanding := rest } : State).Follows vs :=
      ⟨running, lengthLatched, idxInside, fed, ahead,
        fun p pending => settled p (oldest ▸ List.mem_cons_of_mem _ pending), noRace⟩
    exact .inl (others.putElem v (settled (i, v) (oldest ▸ List.mem_cons_self)))
  all_goals exact .inl ⟨running, lengthLatched, idxInside, fed, ahead, settled, noRace⟩

/-- Settles O33: a step that is not a reset is a turn, and the list of turns is nothing to a run. -/
theorem runFollowsBufferUnderAnyOrder : Obligations.RunFollowsBufferUnderAnyOrder := by
  intro s t vs follows released stepped raceFree
  obtain ⟨asserted, -⟩ | ⟨-, ts, effect⟩ := step_next_cases stepped
  · cases released.symm.trans asserted
  · obtain ⟨running, lengthLatched, idxInside, fed, ahead, settled, noRace⟩ := follows
    exact effect.follows_or_ends ⟨running, lengthLatched, idxInside, fed, ahead, settled, noRace⟩ raceFree

end Sys2Proof.Machine
end

section
/-! PROOFS. What a run has read and recorded, whatever the order of the agents and whatever the races
(20_memory.md R53; 60_exceptions.md R176, R177; 70_reset_and_hazards.md R200). -/

namespace Sys2Proof.Machine

variable {s t : State} {reads vs : List Word} {log : List ObsRecord}

theorem State.blockRegs_eq_iff : t.blockRegs = s.blockRegs ↔
    t.crc = s.crc ∧ t.phase = s.phase ∧ t.idx = s.idx ∧ t.lenL = s.lenL ∧ t.done = s.done ∧ t.err = s.err := by
  simp [State.blockRegs]

/-! ## A turn during a run -/

/-- What a turn can do during a run: an element step, the final step, or nothing to the block. -/
theorem TurnEffect.cases_of_run (h : TurnEffect s t) (running : s.phase = .run) :
    (s.idx.toNat < s.lenL.toNat ∧ t = s.absorb s.bufRead) ∨ (s.idx = s.lenL ∧ t = s.finish) ∨
      (t.blockRegs = s.blockRegs ∧ t.reads = s.reads ∧ t.obsLog = s.obsLog) := by
  cases h
  case accepted idle _ _ _ => cases idle.symm.trans running
  case outOfBounds idle _ _ _ => cases idle.symm.trans running
  case illegal idle _ _ => cases idle.symm.trans running
  case element more _ => exact .inl ⟨more, rfl⟩
  case finished atEnd => exact .inr (.inl ⟨atEnd, rfl⟩)
  all_goals exact .inr (.inr ⟨rfl, rfl, rfl⟩)

/-- No turn changes a parameter (00_scope.md R8). -/
theorem TurnEffect.parameters (h : TurnEffect s t) :
    t.crc.width = s.crc.width ∧ t.obsEn = s.obsEn ∧ t.extent = s.extent := by
  cases h
  case accepted => exact ⟨CrcReg.width_load .., rfl, rfl⟩
  case element => exact ⟨CrcReg.width_absorb .., rfl, rfl⟩
  case finished => exact ⟨CrcReg.width_finish _, rfl, rfl⟩
  all_goals exact ⟨rfl, rfl, rfl⟩

/-! ## The `ELEM` records -/

/-- The records depend on the state only by the width of its register. -/
theorem State.elemRecords_congr (same : t.crc.load 0 = s.crc.load 0) (vs : List Word) :
    t.elemRecords vs = s.elemRecords vs := by
  rw [State.elemRecords, State.elemRecords, same]

/-- One element more is one record more. -/
theorem State.elemRecords_concat (s : State) (vs : List Word) (v : Word) :
    s.elemRecords (vs ++ [v]) =
      s.elemRecords vs ++ [⟨.elem, BitVec.ofNat 32 vs.length, v, ((s.crc.load 0).feed (vs ++ [v])).toWord⟩] := by
  rw [State.elemRecords, List.length_append, List.length_singleton, List.range_succ, List.map_append]
  refine congrArg₂ (· ++ ·) ?earlier ?new
  case earlier =>
    refine List.map_congr_left fun j member => ?_
    have inside : j < vs.length := List.mem_range.mp member
    rw [List.take_append_of_le_length inside, List.getD_append _ _ _ _ inside]
  case new =>
    rw [List.map_singleton, List.take_of_length_le (by simp)]
    simp

/-! ## The run so far -/

theorem State.Ran.of_same (ran : s.Ran reads log vs) (sameRegs : t.blockRegs = s.blockRegs)
    (sameReads : t.reads = s.reads) (sameLog : t.obsLog = s.obsLog) (sameObs : t.obsEn = s.obsEn) :
    t.Ran reads log vs := by
  obtain ⟨crc, phase, idx, lenL, -, -⟩ := State.blockRegs_eq_iff.mp sameRegs
  refine ⟨phase.trans ran.running, ?_, ?_, ?_, sameReads.trans ran.readsSoFar, ?_⟩
  · rw [idx, ran.idxReached]
  · rw [idx, lenL]
    exact ran.idxInside
  · rw [crc]
    exact ran.fed
  · rw [sameLog, sameObs, State.elemRecords_congr (congrArg (·.load 0) crc), ran.logSoFar]

/-- A successful accept starts a run that has read and recorded nothing. -/
theorem State.startRun_ran (s : State) (len : Word) : (s.takeCommand.startRun len).Ran s.reads s.obsLog [] where
  running := rfl
  idxReached := rfl
  idxInside := Nat.zero_le _
  fed := (CrcReg.load_load s.crc 0 0).symm
  readsSoFar := by simp
  logSoFar := by simp [State.elemRecords]

theorem State.Ran.idx_eq (ran : s.Ran reads log vs) : s.idx = BitVec.ofNat 32 vs.length := by
  rw [← ran.idxReached]
  simp

/-- An element step reads exactly the next element, and records it. -/
theorem State.Ran.absorb (ran : s.Ran reads log vs) (more : s.idx.toNat < s.lenL.toNat) :
    (s.absorb s.bufRead).Ran reads log (vs ++ [s.bufRead]) := by
  have idxNext : (s.absorb s.bufRead).idx.toNat = s.idx.toNat + 1 := toNat_add_one_of_lt more
  have fed : s.crc.absorb s.bufRead = (s.crc.load 0).feed (vs ++ [s.bufRead]) :=
    (congrArg (·.absorb s.bufRead) ran.fed).trans (CrcReg.feed_concat ..).symm
  have sameZero : (s.absorb s.bufRead).crc.load 0 = s.crc.load 0 := CrcReg.load_absorb ..
  refine ⟨ran.running, ?idxReached, idxNext ▸ more, ?fed, ?reads, ?log⟩
  case idxReached => rw [idxNext, ran.idxReached, List.length_append, List.length_singleton]
  case fed => rw [sameZero, ← fed, State.absorb_crc]
  case reads =>
    rw [State.absorb_reads, ran.readsSoFar, ran.idx_eq, List.length_append, List.length_singleton, List.range_succ,
      List.map_append, List.map_singleton, List.append_assoc]
  case log =>
    rw [State.absorb_obsLog, State.absorb_obsEn, State.elemRecords_congr sameZero, ran.logSoFar, State.elemRecord, fed,
      ran.idx_eq, State.elemRecords_concat]
    split
    · rw [List.append_assoc]
    · rfl

/-- What the end of a run leaves: its elements read, once each, and the `FINAL` record last. -/
theorem State.Ran.finish (ran : s.Ran reads log vs) (atEnd : s.idx = s.lenL) :
    vs.length = s.lenL.toNat ∧
      s.finish.reads = reads ++ (List.range s.lenL.toNat).map (BitVec.ofNat 32) ∧
      s.finish.crc = ((s.crc.load 0).feed vs).finish ∧
      s.finish.obsLog =
        if s.obsEn then log ++ s.elemRecords vs ++ [⟨.final, s.lenL, 0, s.finish.resultWord⟩] else log := by
  have length : vs.length = s.lenL.toNat := by rw [← ran.idxReached, atEnd]
  refine ⟨length, ?reads, congrArg CrcReg.finish ran.fed, ?log⟩
  case reads => rw [State.finish_reads, ran.readsSoFar, length]
  case log =>
    rw [State.finish_obsLog, ran.logSoFar, State.finalRecord_eq_resultWord_finish]
    split <;> rfl

/-- Settles O58: the accept is `State.startRun`, and after it `cases_of_run` says what a turn can do. -/
theorem anyOrderKeepsReadsAndRecords : Obligations.AnyOrderKeepsReadsAndRecords := by
  refine ⟨fun s t size len idle executed started => ?accept, fun s t reads log vs ran released stepped => ?step⟩
  case accept =>
    obtain within | past := le_or_gt len.toNat size.toNat
    · obtain rfl := Outcome.next_inj.mp ((execCompute_of_within idle within).symm.trans executed)
      exact ⟨s.startRun_ran len, rfl⟩
    · obtain rfl := Outcome.next_inj.mp ((execCompute_of_past idle past).symm.trans executed)
      cases idle.symm.trans started
  case step =>
    obtain ⟨asserted, -⟩ | ⟨-, ts, effect⟩ := step_next_cases stepped
    · cases released.symm.trans asserted
    obtain ⟨sameWidth, sameObs, -⟩ := effect.parameters
    have ranOn : ({ s with turns := ts } : State).Ran reads log vs := ran.of_same rfl rfl rfl rfl
    obtain ⟨more, rfl⟩ | ⟨atEnd, rfl⟩ | ⟨sameRegs, sameReads, sameLog⟩ := effect.cases_of_run ran.running
    · exact ⟨rfl, sameObs, sameWidth, .inr (.inl (ranOn.absorb more))⟩
    · obtain ⟨length, allRead, register, records⟩ := ranOn.finish atEnd
      exact ⟨rfl, sameObs, sameWidth, .inr (.inr ⟨length, rfl, rfl, allRead, register, records⟩)⟩
    · obtain ⟨-, -, -, sameLen, -, -⟩ := State.blockRegs_eq_iff.mp sameRegs
      exact ⟨sameLen, sameObs, sameWidth, .inl (ranOn.of_same sameRegs sameReads sameLog sameObs)⟩

end Sys2Proof.Machine
end

section
/-! PROOFS. The invariant of the machine, kept by each operation on the state and so by every step (10_state.md R28,
R29; 20_memory.md R60; 41_sequencer.md R133; 60_exceptions.md R162). -/

namespace Sys2Proof.Machine

variable {s t : State}

/-- Settles O54: the reset state has an empty buffer, and it is idle without a result. -/
theorem resetHasInvariant : Obligations.ResetHasInvariant :=
  ⟨List.Pairwise.nil, nofun, nofun, nofun, nofun, nofun, nofun⟩

/-! ## The block's operations -/

theorem State.Inv.resetBlock (inv : s.Inv) : s.resetBlock.Inv :=
  ⟨inv.memWf, inv.memInside, inv.outstandingInside, nofun, nofun, nofun, nofun⟩

theorem State.Inv.startRun (inv : s.Inv) (len : Word) : (s.takeCommand.startRun len).Inv where
  memWf := inv.memWf
  memInside := inv.memInside
  outstandingInside := inv.outstandingInside
  errProduced := nofun
  doneEnds := nofun
  runInside _ := ⟨rfl, rfl, Nat.zero_le _⟩
  racedInside i marked := ⟨rfl, ((s.mem_racedAtAccept_iff len i).mp marked).1⟩

theorem State.Inv.raiseError (inv : s.Inv) (idle : s.phase = .idle) {code : ErrCode}
    (produced : code ≠ .invalidArgument) : (s.takeCommand.raiseError code).Inv where
  memWf := inv.memWf
  memInside := inv.memInside
  outstandingInside := inv.outstandingInside
  errProduced := produced
  doneEnds := nofun
  runInside running := nomatch idle.symm.trans running
  racedInside := inv.racedInside

theorem State.Inv.absorb (inv : s.Inv) (more : s.idx.toNat < s.lenL.toNat) (v : Word) : (s.absorb v).Inv where
  memWf := inv.memWf
  memInside := inv.memInside
  outstandingInside := inv.outstandingInside
  errProduced := inv.errProduced
  doneEnds := inv.doneEnds
  runInside running := by
    obtain ⟨noResult, noError, -⟩ := inv.runInside running
    exact ⟨noResult, noError, (toNat_add_one_of_lt more).le.trans more⟩
  racedInside := inv.racedInside

theorem State.Inv.finish (inv : s.Inv) (running : s.phase = .run) : s.finish.Inv where
  memWf := inv.memWf
  memInside := inv.memInside
  outstandingInside := inv.outstandingInside
  errProduced := inv.errProduced
  doneEnds _ := by
    obtain ⟨-, noError, -⟩ := inv.runInside running
    exact ⟨rfl, noError⟩
  runInside := nofun
  racedInside := nofun

/-! ## The host's operations -/

theorem State.Inv.noteWrite (inv : s.Inv) (i : Word) : (s.noteWrite i).Inv where
  memWf := inv.memWf
  memInside := inv.memInside
  outstandingInside := inv.outstandingInside
  errProduced := inv.errProduced
  doneEnds := inv.doneEnds
  runInside := inv.runInside
  racedInside j marked := by
    rw [State.noteWrite_raced] at marked
    split at marked
    case isTrue ahead =>
      obtain ⟨running, -, inside⟩ := ahead
      obtain rfl | earlier := List.mem_cons.mp marked
      · exact ⟨running, inside⟩
      · exact inv.racedInside j earlier
    case isFalse => exact inv.racedInside j marked

theorem State.Inv.putElem (inv : s.Inv) {i : Word} (inside : i.toNat < s.extent) (v : Word) : (s.putElem i v).Inv where
  memWf := Memory.write_wf inv.memWf ..
  memInside p held := by
    obtain rfl | earlier := Memory.mem_write held
    · exact inside
    · exact inv.memInside p earlier
  outstandingInside := inv.outstandingInside
  errProduced := inv.errProduced
  doneEnds := inv.doneEnds
  runInside := inv.runInside
  racedInside := inv.racedInside

theorem State.Inv.landAll (inv : s.Inv) : s.landAll.Inv where
  memWf := Memory.writes_wf inv.memWf _
  memInside p held := by
    obtain earlier | ⟨write, issued, rfl⟩ := Memory.mem_writes held
    · exact inv.memInside p earlier
    · exact inv.outstandingInside write issued
  outstandingInside := nofun
  errProduced := inv.errProduced
  doneEnds := inv.doneEnds
  runInside := inv.runInside
  racedInside := inv.racedInside

theorem State.Inv.with_outstanding (inv : s.Inv) {ws : List (Word × Word)} (inside : ∀ p ∈ ws, p.1.toNat < s.extent) :
    ({ s with outstanding := ws } : State).Inv :=
  ⟨inv.memWf, inv.memInside, inside, inv.errProduced, inv.doneEnds, inv.runInside, inv.racedInside⟩

theorem State.Inv.with_turns (inv : s.Inv) (ts : List Turn) : ({ s with turns := ts } : State).Inv :=
  ⟨inv.memWf, inv.memInside, inv.outstandingInside, inv.errProduced, inv.doneEnds, inv.runInside, inv.racedInside⟩

/-! ## Any step -/

theorem TurnEffect.inv (h : TurnEffect s t) (inv : s.Inv) : t.Inv := by
  have ⟨memWf, memInside, outstandingInside, errProduced, doneEnds, runInside, racedInside⟩ := inv
  cases h
  case accepted len _ _ _ _ => exact inv.startRun len
  case outOfBounds idle _ _ _ => exact inv.raiseError idle nofun
  case illegal idle _ _ => exact inv.raiseError idle nofun
  case element more _ => exact inv.absorb more _
  case finished running _ => exact inv.finish running
  case wrote rest i v inside =>
    have lineDone : ({ s with program := rest } : State).Inv :=
      ⟨memWf, memInside, outstandingInside, errProduced, doneEnds, runInside, racedInside⟩
    exact (lineDone.noteWrite i).landAll.putElem inside v
  case issued i v inside =>
    refine (inv.noteWrite i).with_outstanding fun p pending => ?_
    obtain earlier | new := List.mem_append.mp pending
    · exact outstandingInside p earlier
    · obtain rfl := List.mem_singleton.mp new
      exact inside
  case landed i v rest oldest =>
    rw [oldest] at outstandingInside
    obtain ⟨inside, others⟩ := List.forall_mem_cons.mp outstandingInside
    exact (inv.with_outstanding others).putElem inside v
  all_goals exact ⟨memWf, memInside, outstandingInside, errProduced, doneEnds, runInside, racedInside⟩

/-- Settles O55: reset and every turn keep the invariant, and the list of turns is nothing to it. -/
theorem stepKeepsInvariant : Obligations.StepKeepsInvariant := by
  intro s t inv stepped
  obtain ⟨-, rfl⟩ | ⟨-, ts, effect⟩ := step_next_cases stepped
  · exact inv.resetBlock
  · exact effect.inv (inv.with_turns ts)

end Sys2Proof.Machine
end

section
/-! PROOFS. When a move has no next state: the two refusals, each with its cause, and no fault inside the invariant
(41_sequencer.md R133, R144; 93_implementation_defined.md I7; notes/assumptions/7.md). -/

namespace Sys2Proof.Machine

variable {s : State}

/-! ## The sequencer -/

/-- A run reads past the real end of the buffer. -/
def State.ReadsPastEnd (s : State) : Prop :=
  s.phase = .run ∧ s.extent ≤ s.idx.toNat ∧ s.idx.toNat < s.lenL.toNat

theorem runStep_answers (running : s.phase = .run) (idxInside : s.idx.toNat ≤ s.lenL.toNat) :
    (∃ t, runStep s = .next t) ∨ (runStep s = .refused .bufferReadPastEnd ∧ s.ReadsPastEnd) := by
  obtain more | atEnd := lt_or_eq_of_le idxInside
  case inr => exact .inl ⟨_, runStep_final (BitVec.eq_of_toNat_eq atEnd)⟩
  case inl =>
    by_cases inside : s.idx.toNat < s.extent
    case pos => exact .inl ⟨_, runStep_element more inside⟩
    case neg => exact .inr ⟨runStep_refused more inside, running, not_lt.mp inside, more⟩

theorem acceptStep_answers (idle : s.phase = .idle) : ∃ t, acceptStep s = .next t := by
  obtain ⟨code, fails⟩ | starts := acceptStep_fails_or_starts idle
  · exact ⟨_, fails⟩
  · exact ⟨_, starts⟩

/-- The sequencer stops only by reading past the real end. -/
theorem State.Inv.sequencerStep_answers (inv : s.Inv) :
    (∃ t, sequencerStep s = .next t) ∨ (sequencerStep s = .refused .bufferReadPastEnd ∧ s.ReadsPastEnd) := by
  cases phase : s.phase with
  | run =>
    obtain ⟨-, -, idxInside⟩ := inv.runInside phase
    rw [sequencerStep_of_run phase]
    exact runStep_answers phase idxInside
  | idle =>
    cases valid : s.cmdValid with
    | false => exact .inl ⟨s, sequencerStep_of_quiescent phase valid⟩
    | true =>
      rw [sequencerStep_of_presented phase valid]
      exact .inl (acceptStep_answers phase)

/-! ## The host -/

theorem hostWrite_answers (i v : Word) (s : State) :
    (∃ t, hostWrite i v s = .next t) ∨ (hostWrite i v s = .refused .hostWritePastEnd ∧ s.extent ≤ i.toNat) := by
  by_cases inside : i.toNat < s.extent
  case pos => exact .inl ⟨_, if_pos inside⟩
  case neg => exact .inr ⟨if_neg inside, not_lt.mp inside⟩

theorem issueWrite_answers (i v : Word) (s : State) :
    (∃ t, issueWrite i v s = .next t) ∨ (issueWrite i v s = .refused .hostWritePastEnd ∧ s.extent ≤ i.toNat) := by
  by_cases inside : i.toNat < s.extent
  case pos => exact .inl ⟨_, if_pos inside⟩
  case neg => exact .inr ⟨if_neg inside, not_lt.mp inside⟩

theorem hostLine_wait (rest : List HostLine) (s : State) :
    hostLine .wait rest s = .next (if s.busy then s else { s with program := rest }) := by
  rw [hostLine]
  split <;> rfl

theorem hostStep_of_presented (valid : s.cmdValid = true) : hostStep s = .next s := if_pos valid

theorem hostStep_of_line (free : s.cmdValid = false) {l : HostLine} {rest : List HostLine}
    (next : s.program = l :: rest) : hostStep s = hostLine l rest s := by
  simp [hostStep, free, next]

/-- The host writes past the real end by the line that is next in its program. -/
def State.LinePastEnd (s : State) (i v : Word) : Prop :=
  s.extent ≤ i.toNat ∧ s.cmdValid = false ∧ ∃ rest, s.program = .bufw i v :: rest

/-- The host stops only at a BUFW line to an element that its buffer does not have. -/
theorem hostStep_answers (s : State) :
    (∃ t, hostStep s = .next t) ∨ (hostStep s = .refused .hostWritePastEnd ∧ ∃ i v, s.LinePastEnd i v) := by
  cases valid : s.cmdValid with
  | true => exact .inl ⟨s, hostStep_of_presented valid⟩
  | false =>
    cases program : s.program with
    | nil => exact .inl ⟨s, hostStep_of_no_line program⟩
    | cons l rest =>
      rw [hostStep_of_line valid program]
      cases l with
      | bufw i v =>
        obtain answered | ⟨refused, past⟩ := hostWrite_answers i v { s with program := rest }
        · exact .inl answered
        · exact .inr ⟨refused, i, v, past, valid, rest, program⟩
      | wait => exact .inl ⟨_, hostLine_wait rest s⟩
      | _ => exact .inl ⟨_, rfl⟩

/-! ## Any turn, any step -/

theorem landOldest_answers (s : State) : ∃ t, landOldest s = .next t := by
  cases pending : s.outstanding with
  | nil => exact ⟨s, landOldest_of_none pending⟩
  | cons write rest => exact ⟨_, landOldest_of_oldest pending⟩

/-- A turn that is not answered is a read or a write past the real end. -/
theorem State.Inv.takeTurn_answers (inv : s.Inv) (u : Turn) :
    (∃ t, takeTurn u s = .next t) ∨ (takeTurn u s = .refused .bufferReadPastEnd ∧ s.ReadsPastEnd) ∨
      (takeTurn u s = .refused .hostWritePastEnd ∧
        ∃ i v, (u = .issueWrite i v ∧ s.extent ≤ i.toNat) ∨ (u = .host ∧ s.LinePastEnd i v)) := by
  cases u with
  | block => exact inv.sequencerStep_answers.imp_right .inl
  | host =>
    obtain answered | ⟨refused, i, v, past⟩ := hostStep_answers s
    · exact .inl answered
    · exact .inr (.inr ⟨refused, i, v, .inr ⟨rfl, past⟩⟩)
  | issueWrite i v =>
    obtain answered | ⟨refused, past⟩ := issueWrite_answers i v s
    · exact .inl answered
    · exact .inr (.inr ⟨refused, i, v, .inl ⟨rfl, past⟩⟩)
  | landWrite => exact .inl (landOldest_answers s)
  | _ => exact .inl ⟨_, rfl⟩

theorem step_of_listed (released : s.rst = false) {u : Turn} {us : List Turn} (listed : s.turns = u :: us) :
    step s = takeTurn u { s with turns := us } := by
  simp [step, systemStep, released, listed]

theorem step_of_no_turn (released : s.rst = false) (noTurn : s.turns = []) : step s = takeTurn s.defaultTurn s := by
  simp [step, systemStep, released, noTurn]

/-- Without a reset the step is the turn listed first, or the default one. -/
theorem step_eq_takeTurn (released : s.rst = false) :
    step s = takeTurn (s.turns.head?.getD s.defaultTurn) { s with turns := s.turns.tail } := by
  cases turns : s.turns with
  | nil =>
    have same : ({ s with turns := [] } : State) = s := by rw [← turns]
    rw [step_of_no_turn released turns, List.head?_nil, Option.getD_none, List.tail_nil, same]
  | cons u us => rw [step_of_listed released turns, List.head?_cons, Option.getD_some, List.tail_cons]

/-- The default turn never issues a write. -/
theorem State.turns_of_issueWrite {i v : Word} (first : s.turns.head?.getD s.defaultTurn = .issueWrite i v) :
    ∃ ts, s.turns = .issueWrite i v :: ts := by
  cases turns : s.turns with
  | nil =>
    rw [turns, List.head?_nil, Option.getD_none, State.defaultTurn] at first
    split at first <;> cases first
  | cons u us =>
    rw [turns, List.head?_cons, Option.getD_some] at first
    exact ⟨us, by rw [first]⟩

/-- Settles O56: reset is answered, and any other step is a turn, where `takeTurn_answers` gives the cause of a stop. -/
theorem onlyTheHostCanStopTheMachine : Obligations.OnlyTheHostCanStopTheMachine := by
  intro s inv
  cases rst : s.rst with
  | true =>
    rw [step_of_rst rst]
    exact ⟨nofun, nofun⟩
  | false =>
    rw [step_eq_takeTurn rst]
    obtain ⟨t, answered⟩ | ⟨refused, running, pastEnd, more⟩ | ⟨refused, i, v, cause⟩ :=
      (inv.with_turns s.turns.tail).takeTurn_answers (s.turns.head?.getD s.defaultTurn)
    · rw [answered]
      exact ⟨nofun, nofun⟩
    · rw [refused]
      refine ⟨nofun, ?_⟩
      rintro _ ⟨⟩
      exact ⟨rfl, .inl ⟨rfl, running, pastEnd, more⟩⟩
    · rw [refused]
      refine ⟨nofun, ?_⟩
      rintro _ ⟨⟩
      obtain ⟨issued, past⟩ | ⟨hostNext, past, line⟩ := cause
      · exact ⟨rfl, .inr ⟨rfl, i, v, past, .inl (State.turns_of_issueWrite issued)⟩⟩
      · exact ⟨rfl, .inr ⟨rfl, i, v, past, .inr ⟨hostNext, line⟩⟩⟩

end Sys2Proof.Machine
end

section
/-! PROOFS. Who writes what: the sequencer and the host by what they leave, and DONE, ERR, IDX and BUSY by the only steps
that change them (10_state.md R24 to R29; 20_memory.md R51; 41_sequencer.md R141, R143). -/

namespace Sys2Proof.Machine

variable {s t : State}

/-! ## The sequencer -/

/-- Everything that the sequencer's step can do, by the phase. -/
theorem sequencerStep_next_cases (h : sequencerStep s = .next t) :
    (s.phase = .idle ∧
        (t = s ∨ (∃ code, t = s.takeCommand.raiseError code) ∨ t = s.takeCommand.startRun s.cmd.len)) ∨
      (s.phase = .run ∧
        ((s.idx.toNat < s.lenL.toNat ∧ t = s.absorb s.bufRead) ∨ (s.idx = s.lenL ∧ t = s.finish))) := by
  cases phase : s.phase with
  | run => exact .inr ⟨rfl, runStep_next_cases ((sequencerStep_of_run phase).symm.trans h)⟩
  | idle =>
    refine .inl ⟨rfl, ?_⟩
    cases valid : s.cmdValid with
    | false => exact .inl (Outcome.next_inj.mp (h.symm.trans (sequencerStep_of_quiescent phase valid)))
    | true =>
      rw [sequencerStep_of_presented phase valid] at h
      obtain ⟨code, fails⟩ | starts := acceptStep_fails_or_starts phase
      · exact .inr (.inl ⟨code, Outcome.next_inj.mp (h.symm.trans fails)⟩)
      · exact .inr (.inr (Outcome.next_inj.mp (h.symm.trans starts)))

/-- Settles O39: none of the sequencer's updates names the buffer, the host or the turns. -/
theorem blockNeverWritesBuffer : Obligations.BlockNeverWritesBuffer := by
  intro s t stepped
  obtain ⟨-, rfl | ⟨code, rfl⟩ | rfl⟩ | ⟨-, ⟨-, rfl⟩ | ⟨-, rfl⟩⟩ := sequencerStep_next_cases stepped
  all_goals exact ⟨rfl, rfl, rfl, rfl, rfl, rfl, rfl⟩

/-! ## The host -/

/-- `t` has the block's registers, the reads and the records of `s`. -/
def State.SameBlock (s t : State) : Prop :=
  t.blockRegs = s.blockRegs ∧ t.reads = s.reads ∧ t.obsLog = s.obsLog

theorem hostLine_frame {l : HostLine} {rest : List HostLine} (h : hostLine l rest s = .next t) :
    s.SameBlock t ∧ (t.mem ≠ s.mem → ∃ i v, l = .bufw i v) := by
  cases l with
  | bufw i v =>
    obtain ⟨-, rfl⟩ := hostWrite_eq_next_iff.mp h
    exact ⟨⟨rfl, rfl, rfl⟩, fun _ => ⟨i, v, rfl⟩⟩
  | wait =>
    obtain rfl := Outcome.next_inj.mp ((hostLine_wait rest s).symm.trans h)
    split <;> exact ⟨⟨rfl, rfl, rfl⟩, absurd rfl⟩
  | _ =>
    obtain rfl := Outcome.next_inj.mp h
    exact ⟨⟨rfl, rfl, rfl⟩, absurd rfl⟩

theorem hostStep_frame (h : hostStep s = .next t) :
    s.SameBlock t ∧ (t.mem ≠ s.mem → s.cmdValid = false ∧ ∃ i v rest, s.program = .bufw i v :: rest) := by
  cases valid : s.cmdValid with
  | true =>
    obtain rfl := Outcome.next_inj.mp ((hostStep_of_presented valid).symm.trans h)
    exact ⟨⟨rfl, rfl, rfl⟩, absurd rfl⟩
  | false =>
    cases program : s.program with
    | nil =>
      obtain rfl := Outcome.next_inj.mp ((hostStep_of_no_line program).symm.trans h)
      exact ⟨⟨rfl, rfl, rfl⟩, absurd rfl⟩
    | cons l rest =>
      obtain ⟨same, write⟩ := hostLine_frame ((hostStep_of_line valid program).symm.trans h)
      refine ⟨same, fun changed => ?_⟩
      obtain ⟨i, v, rfl⟩ := write changed
      exact ⟨rfl, i, v, rest, rfl⟩

theorem landOldest_frame (h : landOldest s = .next t) : s.SameBlock t := by
  cases pending : s.outstanding with
  | nil =>
    obtain rfl := Outcome.next_inj.mp ((landOldest_of_none pending).symm.trans h)
    exact ⟨rfl, rfl, rfl⟩
  | cons write rest =>
    obtain rfl := Outcome.next_inj.mp ((landOldest_of_oldest pending).symm.trans h)
    exact ⟨rfl, rfl, rfl⟩

/-- Settles O35: turn by turn. -/
theorem onlySequencerWritesRegisters : Obligations.OnlySequencerWritesRegisters := by
  intro u s t notBlock taken
  suffices s.SameBlock t ∧ (t.mem ≠ s.mem → u = .landWrite ∨
      (u = .host ∧ s.cmdValid = false ∧ ∃ i v rest, s.program = .bufw i v :: rest)) by
    obtain ⟨⟨regs, reads, log⟩, write⟩ := this
    exact ⟨regs, reads, log, write⟩
  cases u with
  | block => exact absurd rfl notBlock
  | host =>
    obtain ⟨same, write⟩ := hostStep_frame taken
    exact ⟨same, fun changed => .inr ⟨rfl, write changed⟩⟩
  | landWrite => exact ⟨landOldest_frame taken, fun _ => .inl rfl⟩
  | issueWrite i v =>
    obtain ⟨-, rfl⟩ := issueWrite_eq_next_iff.mp taken
    exact ⟨⟨rfl, rfl, rfl⟩, absurd rfl⟩
  | _ =>
    obtain rfl := Outcome.next_inj.mp taken
    exact ⟨⟨rfl, rfl, rfl⟩, absurd rfl⟩

/-! ## The only changes of a register -/

theorem TurnEffect.done_of_changed (h : TurnEffect s t) (changed : t.done ≠ s.done) :
    (t.done = true ∧ s.phase = .run ∧ s.idx = s.lenL) ∨ (t.done = false ∧ s.phase = .idle ∧ s.cmdValid = true) := by
  cases h
  case accepted idle offered _ _ => exact .inr ⟨rfl, idle, offered⟩
  case outOfBounds idle offered _ _ => exact .inr ⟨rfl, idle, offered⟩
  case illegal idle offered _ => exact .inr ⟨rfl, idle, offered⟩
  case finished running atEnd => exact .inl ⟨rfl, running, atEnd⟩
  all_goals exact absurd rfl changed

/-- Settles O36: reset clears DONE, and of the turns only the final step sets it and only an accept clears it. -/
theorem whatChangesDone : Obligations.WhatChangesDone := by
  intro s t stepped changed
  obtain ⟨asserted, rfl⟩ | ⟨released, ts, effect⟩ := step_next_cases stepped
  · exact .inr ⟨rfl, .inl asserted⟩
  · obtain ⟨set, final⟩ | ⟨cleared, accept⟩ := effect.done_of_changed changed
    · exact .inl ⟨set, released, final⟩
    · exact .inr ⟨cleared, .inr accept⟩

theorem TurnEffect.accepts_of_err_changed (h : TurnEffect s t) (changed : t.err ≠ s.err) :
    s.phase = .idle ∧ s.cmdValid = true := by
  cases h
  case accepted idle offered _ _ => exact ⟨idle, offered⟩
  case outOfBounds idle offered _ _ => exact ⟨idle, offered⟩
  case illegal idle offered _ => exact ⟨idle, offered⟩
  all_goals exact absurd rfl changed

/-- Settles O37: reset writes NONE, and of the turns only an accept writes ERR. -/
theorem errorStaysUntilAcceptOrReset : Obligations.ErrorStaysUntilAcceptOrReset := by
  intro s t stepped changed
  obtain ⟨asserted, rfl⟩ | ⟨released, ts, effect⟩ := step_next_cases stepped
  · exact .inl ⟨asserted, rfl⟩
  · exact .inr ⟨released, effect.accepts_of_err_changed changed⟩

theorem TurnEffect.idx_of_changed (h : TurnEffect s t) (changed : t.idx ≠ s.idx) :
    (s.phase = .idle ∧ s.cmdValid = true ∧ t.phase = .run ∧ t.err = .none ∧ t.idx = 0) ∨
      (s.phase = .run ∧ t.idx.toNat = s.idx.toNat + 1 ∧ t.idx.toNat ≤ s.lenL.toNat) := by
  cases h
  case accepted idle offered _ _ => exact .inl ⟨idle, offered, rfl, rfl, rfl⟩
  case element running more _ =>
    have idxNext : (s.absorb s.bufRead).idx.toNat = s.idx.toNat + 1 := toNat_add_one_of_lt more
    exact .inr ⟨running, idxNext, idxNext.le.trans more⟩
  all_goals exact absurd rfl changed

/-- Settles O38: of the turns only a successful accept and an element step write IDX. -/
theorem whatChangesIdx : Obligations.WhatChangesIdx := by
  intro s t stepped changed
  obtain ⟨asserted, -⟩ | ⟨released, ts, effect⟩ := step_next_cases stepped
  · exact .inl asserted
  · obtain accept | element := effect.idx_of_changed changed
    · exact .inr (.inl ⟨released, accept⟩)
    · exact .inr (.inr ⟨released, element⟩)

/-- Settles O41: reset loads CRC at its width, and `TurnEffect.parameters` is the rest. -/
theorem parametersNeverChange : Obligations.ParametersNeverChange := by
  intro s t stepped
  obtain ⟨-, rfl⟩ | ⟨-, ts, effect⟩ := step_next_cases stepped
  · exact ⟨CrcReg.width_load .., rfl, rfl⟩
  · exact effect.parameters

/-! ## The end of BUSY -/

theorem State.busy_iff (s : State) : s.busy = true ↔ s.phase = .run := by simp [State.busy]

/-- Settles O45: of what a turn can do during a run, only the final step ends it. -/
theorem statusAndResultAppearTogether : Obligations.StatusAndResultAppearTogether := by
  intro s t released busy stepped ended
  have running : s.phase = .run := s.busy_iff.mp busy
  obtain ⟨asserted, -⟩ | ⟨-, ts, effect⟩ := step_next_cases stepped
  · cases released.symm.trans asserted
  have stillBusy : t.phase ≠ s.phase := fun same => by
    cases ended.symm.trans (t.busy_iff.mpr (same.trans running))
  obtain ⟨-, rfl⟩ | ⟨-, rfl⟩ | ⟨same, -, -⟩ := effect.cases_of_run running
  · exact absurd rfl stillBusy
  · exact ⟨rfl, State.resultWord_of_done rfl, rfl⟩
  · obtain ⟨-, samePhase, -⟩ := State.blockRegs_eq_iff.mp same
    exact absurd samePhase stillBusy

end Sys2Proof.Machine
end

section
/-! PROOFS. The read port and the observer port: what they show is what the sequencer's step does, and no step depends
on the observer port (30_encoding.md R70; 60_exceptions.md R175, R178; notes/assumptions/27.md). -/

namespace Sys2Proof.Machine

variable {s t : State}

/-! ## The read port -/

theorem State.bufRd_of_rst (asserted : s.rst = true) : s.bufRd = false := by simp [State.bufRd, asserted]

theorem State.bufRd_of_idle (idle : s.phase = .idle) : s.bufRd = false := by simp [State.bufRd, State.busy, idle]

theorem State.bufRd_of_run (released : s.rst = false) (running : s.phase = .run) :
    s.bufRd = decide (s.idx.toNat < s.lenL.toNat) := by
  simp [State.bufRd, State.busy, released, running]

theorem State.bufIdx_of_bufRd (reading : s.bufRd = true) : s.bufIdx = s.idx := if_pos reading

/-! ## The observer port -/

theorem State.obsPort_of_absent (absent : s.obsEn = false) : s.obsPort = none := by simp [State.obsPort, absent]

theorem State.obsPort_of_rst (asserted : s.rst = true) : s.obsPort = none := by simp [State.obsPort, asserted]

theorem State.obsPort_of_idle (idle : s.phase = .idle) : s.obsPort = none := by simp [State.obsPort, idle]

theorem State.obsPort_of_more (present : s.obsEn = true) (released : s.rst = false) (running : s.phase = .run)
    (more : s.idx.toNat < s.lenL.toNat) : s.obsPort = some (s.elemRecord s.bufRead) := by
  simp [State.obsPort, present, released, running, more]

theorem State.obsPort_of_atEnd (present : s.obsEn = true) (released : s.rst = false) (running : s.phase = .run)
    (atEnd : s.idx = s.lenL) : s.obsPort = some s.finalRecord := by
  simp [State.obsPort, present, released, running, atEnd]

theorem State.obsPort_of_run (present : s.obsEn = true) (released : s.rst = false) (running : s.phase = .run)
    (idxInside : s.idx.toNat ≤ s.lenL.toNat) : ∃ r, s.obsPort = some r := by
  obtain more | atEnd := lt_or_eq_of_le idxInside
  · exact ⟨_, State.obsPort_of_more present released running more⟩
  · exact ⟨_, State.obsPort_of_atEnd present released running (BitVec.eq_of_toNat_eq atEnd)⟩

/-! ## The step against the ports -/

/-- A record is emitted exactly if the observer port is there. -/
theorem State.emit_obsLog_eq_append (s : State) (r : ObsRecord) :
    (s.emit r).obsLog = s.obsLog ++ (if s.obsEn then some r else none).toList := by
  rw [State.emit_obsLog]
  split
  · rw [Option.toList_some]
  · rw [Option.toList_none, List.append_nil]

theorem sequencerStep_shown_by_ports (released : s.rst = false) (stepped : sequencerStep s = .next t) :
    t.obsLog = s.obsLog ++ s.obsPort.toList ∧ t.reads = s.reads ++ (if s.bufRd then [s.bufIdx] else []) := by
  obtain ⟨idle, accepted⟩ | ⟨running, ⟨more, rfl⟩ | ⟨atEnd, rfl⟩⟩ := sequencerStep_next_cases stepped
  case inl =>
    have silent : t.obsLog = s.obsLog ∧ t.reads = s.reads := by
      obtain rfl | ⟨code, rfl⟩ | rfl := accepted <;> exact ⟨rfl, rfl⟩
    rw [State.obsPort_of_idle idle, State.bufRd_of_idle idle]
    simpa using silent
  case inr.inl =>
    have reading : s.bufRd = true := by rw [State.bufRd_of_run released running, decide_eq_true more]
    have shown : s.obsPort = if s.obsEn then some (s.elemRecord s.bufRead) else none := by
      split
      case isTrue present => exact State.obsPort_of_more present released running more
      case isFalse absent => exact State.obsPort_of_absent (Bool.eq_false_iff.mpr absent)
    refine ⟨shown ▸ s.emit_obsLog_eq_append _, ?_⟩
    rw [if_pos reading, State.bufIdx_of_bufRd reading, State.absorb_reads]
  case inr.inr =>
    have notReading : s.bufRd = false := by simp [State.bufRd_of_run released running, atEnd]
    have shown : s.obsPort = if s.obsEn then some s.finalRecord else none := by
      split
      case isTrue present => exact State.obsPort_of_atEnd present released running atEnd
      case isFalse absent => exact State.obsPort_of_absent (Bool.eq_false_iff.mpr absent)
    refine ⟨shown ▸ s.emit_obsLog_eq_append _, ?_⟩
    simp [notReading]

/-- Settles O40: the ports by the phase and by `rst`, and the sequencer's step against them. -/
theorem portsShowReadsAndRecords : Obligations.PortsShowReadsAndRecords := by
  refine fun s t => ⟨sequencerStep_shown_by_ports, fun asserted stepped => ?reset,
    fun idle => ⟨State.obsPort_of_idle idle, State.bufRd_of_idle idle⟩, State.obsPort_of_absent, State.obsPort_of_run⟩
  case reset =>
    obtain rfl := Outcome.next_inj.mp ((step_of_rst asserted).symm.trans stepped)
    exact ⟨rfl, rfl, State.obsPort_of_rst asserted, State.bufRd_of_rst asserted⟩

/-! ## A machine without the observer port

Each move on `s.withoutObserver` is the move on `s`, its next state without the observer. -/

theorem runStep_withoutObserver (s : State) :
    runStep s.withoutObserver = mapNext State.withoutObserver (runStep s) := by
  simp only [runStep, elementStep, finalStep, apply_ite (mapNext State.withoutObserver)]
  rfl

theorem acceptStep_withoutObserver (idle : s.phase = .idle) :
    acceptStep s.withoutObserver = mapNext State.withoutObserver (acceptStep s) := by
  by_cases compute : s.cmd.ctrl = ctrlCompute
  case neg =>
    rw [acceptStep_of_ctrl_ne idle compute]
    exact acceptStep_of_ctrl_ne (s := s.withoutObserver) idle compute
  case pos =>
    rw [acceptStep_of_ctrl_eq compute, acceptStep_of_ctrl_eq (s := s.withoutObserver) compute]
    obtain within | past := le_or_gt s.cmd.len.toNat s.cmd.size.toNat
    · rw [execCompute_of_within idle within]
      exact execCompute_of_within (s := s.withoutObserver) idle within
    · rw [execCompute_of_past idle past]
      exact execCompute_of_past (s := s.withoutObserver) idle past

theorem sequencerStep_withoutObserver (s : State) :
    sequencerStep s.withoutObserver = mapNext State.withoutObserver (sequencerStep s) := by
  cases phase : s.phase with
  | run =>
    rw [sequencerStep_of_run phase, sequencerStep_of_run (s := s.withoutObserver) phase]
    exact runStep_withoutObserver s
  | idle =>
    cases valid : s.cmdValid with
    | false =>
      rw [sequencerStep_of_quiescent phase valid]
      exact sequencerStep_of_quiescent (s := s.withoutObserver) phase valid
    | true =>
      rw [sequencerStep_of_presented phase valid, sequencerStep_of_presented (s := s.withoutObserver) phase valid]
      exact acceptStep_withoutObserver phase

theorem hostWrite_withoutObserver (i v : Word) (s : State) :
    hostWrite i v s.withoutObserver = mapNext State.withoutObserver (hostWrite i v s) := by
  rw [hostWrite, hostWrite, apply_ite (mapNext State.withoutObserver)]
  rfl

theorem issueWrite_withoutObserver (i v : Word) (s : State) :
    issueWrite i v s.withoutObserver = mapNext State.withoutObserver (issueWrite i v s) := by
  rw [issueWrite, issueWrite, apply_ite (mapNext State.withoutObserver)]
  rfl

theorem hostLine_withoutObserver (l : HostLine) (rest : List HostLine) (s : State) :
    hostLine l rest s.withoutObserver = mapNext State.withoutObserver (hostLine l rest s) := by
  cases l with
  | bufw i v => exact hostWrite_withoutObserver i v { s with program := rest }
  | wait =>
    rw [hostLine, hostLine, apply_ite (mapNext State.withoutObserver)]
    rfl
  | _ => rfl

theorem hostStep_withoutObserver (s : State) :
    hostStep s.withoutObserver = mapNext State.withoutObserver (hostStep s) := by
  cases valid : s.cmdValid with
  | true =>
    rw [hostStep_of_presented valid]
    exact hostStep_of_presented (s := s.withoutObserver) valid
  | false =>
    cases program : s.program with
    | nil =>
      rw [hostStep_of_no_line program]
      exact hostStep_of_no_line (s := s.withoutObserver) program
    | cons l rest =>
      rw [hostStep_of_line valid program, hostStep_of_line (s := s.withoutObserver) valid program]
      exact hostLine_withoutObserver l rest s

theorem landOldest_withoutObserver (s : State) :
    landOldest s.withoutObserver = mapNext State.withoutObserver (landOldest s) := by
  cases pending : s.outstanding with
  | nil =>
    rw [landOldest_of_none pending]
    exact landOldest_of_none (s := s.withoutObserver) pending
  | cons write rest =>
    rw [landOldest_of_oldest pending]
    exact landOldest_of_oldest (s := s.withoutObserver) pending

theorem takeTurn_withoutObserver (u : Turn) (s : State) :
    takeTurn u s.withoutObserver = mapNext State.withoutObserver (takeTurn u s) := by
  cases u with
  | block => exact sequencerStep_withoutObserver s
  | host => exact hostStep_withoutObserver s
  | issueWrite i v => exact issueWrite_withoutObserver i v s
  | landWrite => exact landOldest_withoutObserver s
  | _ => rfl

/-- Settles O42: reset does not depend on the observer port, and neither does any turn or whose turn it is. -/
theorem observerNeverAffectsStep : Obligations.ObserverNeverAffectsStep := by
  intro s
  cases rst : s.rst with
  | true =>
    rw [step_of_rst rst]
    exact step_of_rst (s := s.withoutObserver) rst
  | false =>
    rw [step_eq_takeTurn rst, step_eq_takeTurn (s := s.withoutObserver) rst]
    exact takeTurn_withoutObserver _ { s with turns := s.turns.tail }

end Sys2Proof.Machine
end

section
/-! PROOFS. The post-inversion bit by bit, and CRC9 over elements that are all the same (40_datapath.md R105, R110,
R111; 95_test_vectors.md section 1.3). -/

namespace Sys2Proof.Machine

variable {w : Nat}

/-! ## The post-inversion -/

/-- Settles O8: the bit law of `fin`, whose set bits are the listed ones. -/
theorem postInversionBits : Obligations.PostInversionBits := by
  refine ⟨fun w hw c i _ => ?bit, by decide⟩
  case bit =>
    have listed : i ≤ 8 ∧ i ≠ 4 ∧ i ≠ 6 ↔ i ∈ [0, 1, 2, 3, 5, 7, 8] := by
      simp only [List.mem_cons, List.not_mem_nil, or_false]
      omega
    rw [getLsbD_fin c i hw.nine_le, decide_eq_decide.mpr listed]
    split
    case isTrue inside => rw [decide_eq_true inside, Bool.xor_true]
    case isFalse outside => rw [decide_eq_false outside, Bool.xor_false]

/-! ## CRC9 of a repeated element -/

theorem crc9_replicate (n : Nat) (v : Word) :
    crc9 w (List.replicate n v) n = some (fin (feed 0 (List.replicate n v))) := by
  simp [crc9]

theorem fin_zero : fin (0 : BitVec w) = 0x1AF := BitVec.zero_xor

theorem crc9_zero (buf : List Word) : crc9 w buf 0 = some 0x1AF := by
  rw [crc9, if_pos (Nat.zero_le _), List.take_zero, feed_nil, fin_zero]

/-- Each of the three operations leaves the all-zero register. -/
theorem stepElem_zero_zero (hw : AdmittedWidth w) : stepElem (0 : BitVec w) 0 = 0 := by
  have clear : (0 : BitVec w).getLsbD 1 = false := BitVec.getLsbD_zero
  rw [stepElem, xin_zero hw, fb_of_bit_clear clear]
  exact (ror1_eq_zero_iff hw 0).mpr rfl

theorem feed_replicate_zero (hw : AdmittedWidth w) (n : Nat) : feed (0 : BitVec w) (List.replicate n 0) = 0 := by
  induction n with
  | zero => rfl
  | succ n ih => rw [List.replicate_succ, feed_cons, stepElem_zero_zero hw, ih]

/-- Settles O12: zero elements leave the register at 0, where a run of no elements leaves it, too. -/
theorem zeroInputGivesMask : Obligations.ZeroInputGivesMask := by
  refine ⟨fun w hw => ⟨fun n => ?zeros, crc9_zero⟩, by decide⟩
  case zeros => rw [crc9_replicate, feed_replicate_zero hw, fin_zero]

/-! ## The reference scenario -/

/-- 34 elements 0x40 bring the all-zero register back to 0. -/
theorem feed_zero_period (hw : AdmittedWidth w) : feed (0 : BitVec w) (List.replicate 34 0x40) = 0 := by
  obtain rfl | rfl := hw <;> simp [List.replicate_succ, stepElem, xin, fb, ror1, kFb, kTop]

theorem feed_replicate_add_period (hw : AdmittedWidth w) (n : Nat) :
    feed (0 : BitVec w) (List.replicate (n + 34) 0x40) = feed 0 (List.replicate n 0x40) := by
  rw [Nat.add_comm, List.replicate_add, feed_append, feed_zero_period hw]

theorem feed_replicate_add_periods (hw : AdmittedWidth w) (n k : Nat) :
    feed (0 : BitVec w) (List.replicate (n + k * 34) 0x40) = feed 0 (List.replicate n 0x40) := by
  induction k with
  | zero => rw [Nat.zero_mul, Nat.add_zero]
  | succ k ih => rw [Nat.succ_mul, ← Nat.add_assoc, feed_replicate_add_period hw, ih]

/-- Settles O13: 800 elements are 23 periods and 18 elements. -/
theorem referenceScenarioHasPeriod34 : Obligations.ReferenceScenarioHasPeriod34 := by
  refine fun w hw => ⟨feed_replicate_add_period hw, ?golden⟩
  case golden =>
    have rest : fin (feed (0 : BitVec w) (List.replicate 18 0x40)) = 0x020 := by
      obtain rfl | rfl := hw <;> simp [List.replicate_succ, stepElem, xin, fb, ror1, kFb, kTop, fin, kFin]
    rw [crc9_replicate, show 800 = 18 + 23 * 34 from rfl, feed_replicate_add_periods hw, rest]

end Sys2Proof.Machine
end

section
/-! PROOFS. The accept of a COMPUTE with its frame, whose move comes next, and the host's lines that read RESULT, hold a
command or wait (10_state.md R31; 30_encoding.md R71, R83; 41_sequencer.md R132; 70_reset_and_hazards.md R190, R195, R200). -/

namespace Sys2Proof.Machine

variable {s : State}

/-! ## COMPUTE -/

/-- Settles O14: the successful accept is `State.startRun`. -/
theorem computeStartsRun : Obligations.ComputeStartsRun := fun s _ _ idle within =>
  ⟨_, execCompute_of_within idle within, rfl, rfl, rfl, CrcReg.toWord_load_zero s.crc, rfl, rfl, rfl⟩

/-- Settles O21: a held command changes nothing, a successful accept is `State.startRun`, and a failed one
`State.raiseError`. -/
theorem computeFrame : Obligations.ComputeFrame := by
  intro s t size len executed
  cases phase : s.phase with
  | run =>
    obtain rfl := Outcome.next_inj.mp ((exec_of_run phase _).symm.trans executed)
    exact ⟨fun _ => rfl, rfl, rfl, rfl, rfl, rfl, rfl, rfl, rfl, rfl, rfl, rfl, rfl, fun _ =>
      ⟨rfl, rfl, rfl, phase, rfl⟩⟩
  | idle =>
    obtain within | past := le_or_gt len.toNat size.toNat
    · obtain rfl := Outcome.next_inj.mp ((execCompute_of_within phase within).symm.trans executed)
      exact ⟨fun _ => rfl, rfl, rfl, rfl, rfl, rfl, rfl, rfl, rfl, rfl, rfl, rfl, CrcReg.width_load .., fun past =>
        absurd within past.not_ge⟩
    · obtain rfl := Outcome.next_inj.mp ((execCompute_of_past phase past).symm.trans executed)
      exact ⟨fun _ => rfl, rfl, rfl, rfl, rfl, rfl, rfl, rfl, rfl, rfl, rfl, rfl, rfl, fun _ =>
        ⟨rfl, rfl, rfl, phase, rfl⟩⟩

/-! ## Whose move comes next -/

theorem State.defaultTurn_of_enabled (enabled : s.phase = .run ∨ s.cmdValid = true) : s.defaultTurn = .block := by
  simp [State.defaultTurn, State.blockEnabled, State.busy, enabled]

/-- Settles O23: by `rst`, by the list of turns, and by what the block has to do. -/
theorem whoMovesNext : Obligations.WhoMovesNext := by
  refine fun s => ⟨step_of_rst, fun released _ _ => step_of_listed released, fun released noTurn enabled => ?block,
    fun released noTurn idle free => ?host⟩
  case block =>
    rw [step_of_no_turn released noTurn, State.defaultTurn_of_enabled enabled]
    rfl
  case host =>
    rw [step_of_no_turn released noTurn, State.defaultTurn_of_quiescent idle free]
    rfl

theorem acceptStep_of_decoded {i : Instr} (decoded : decode s.cmd = .instr i) : acceptStep s = exec i s := by
  simp [acceptStep, decoded]

theorem sequencerStep_of_decoded (idle : s.phase = .idle) (valid : s.cmdValid = true) {i : Instr}
    (decoded : decode s.cmd = .instr i) : sequencerStep s = exec i s :=
  (sequencerStep_of_presented idle valid).trans (acceptStep_of_decoded decoded)

/-- Settles O22: with no turn listed the move is the sequencer's, and with its turn listed first, too. -/
theorem stepRunsDecodedCommand : Obligations.StepRunsDecodedCommand := by
  refine fun s i released idle valid decoded _ => ⟨fun noTurn => ?unlisted, fun ts listed => ?listed⟩
  case unlisted =>
    rw [step_of_no_turn released noTurn, State.defaultTurn_of_enabled (.inr valid)]
    exact sequencerStep_of_decoded idle valid decoded
  case listed =>
    rw [step_of_listed released listed]
    exact sequencerStep_of_decoded (s := { s with turns := ts }) idle valid decoded

/-! ## The host reads RESULT -/

theorem State.resultWord_of_not_done (noResult : s.done = false) : s.resultWord = Config.freeResult s.draws :=
  if_neg (by simp [noResult])

/-- The read takes the number of its free value, so only a result with DONE = 1 stays. -/
theorem readResult_effect (name : String) (s : State) :
    ∃ t, readResult name s = .next t ∧ t.hostVar name = some s.resultWord ∧ t.blockRegs = s.blockRegs ∧
      (s.done = true → t.resultWord = s.resultWord) ∧ t = { s with hostVars := t.hostVars, draws := s.draws + 1 } := by
  refine ⟨_, rfl, State.hostVar_setVar s name _, rfl, fun done => ?kept, rfl⟩
  case kept =>
    rw [State.resultWord_of_done done]
    exact State.resultWord_of_done done

/-- Settles O44: RESULT by DONE, and one read for the turn and for the line. -/
theorem resultWordIsCrcWhenDone : Obligations.ResultWordIsCrcWhenDone := by
  refine fun s => ⟨fun done => ?value, State.resultWord_of_not_done,
    fun name => ⟨readResult_effect name s, fun rest => ?line⟩⟩
  case value => rw [State.resultWord_of_done done, CrcReg.toNat_toWord]
  case line => exact readResult_effect name { s with program := rest }

/-! ## The host holds a command, or waits -/

/-- Settles O48: a CMD line is `State.present`, and a host that presents a command goes to no further line. -/
theorem hostHoldsOrWithdrawsCommand : Obligations.HostHoldsOrWithdrawsCommand :=
  ⟨fun _ _ _ => rfl, fun _ => hostStep_of_presented, fun _ => rfl⟩

/-- Settles O49: the host's step is the WAIT line, by BUSY. -/
theorem waitEndsWhenIdle : Obligations.WaitEndsWhenIdle := by
  intro s rest next free
  rw [hostStep_of_line free next, hostLine_wait]
  refine ⟨fun busy => ?stays, fun notBusy => ?done⟩
  case stays => rw [if_pos busy]
  case done => rw [if_neg (Bool.eq_false_iff.mp notBusy)]

end Sys2Proof.Machine
end
